-- ==== Sys2Proof/Word.lean ====
section
/-!
DEFINITION. The word types of the engine (spec/00_scope.md R5, R6; spec/30_encoding.md R42, R43).
All quantities are unsigned bit fields; nothing is sign-extended anywhere (R6).
-/

namespace Sys2Proof

/-- A byte, 8 bits (R6). -/
abbrev Byte := BitVec 8

/-- A nibble, 4 bits: what one step of the CRC table consumes (R6, R59). -/
abbrev Nibble := BitVec 4

/-- A 16-bit word: the Adler sums and the stored-block `LEN` (R5, R12). -/
abbrev Half := BitVec 16

/-- A 32-bit word: the CRC state, chunk lengths and tags (R5, R11). -/
abbrev Word := BitVec 32

/-- A command word, exactly 72 bits, bit 71 the most significant (R42). -/
abbrev CmdWord := BitVec 72

end Sys2Proof
end

