-- ==== Sys2Proof/Syntax.lean ====
section
/-!
DEFINITION. The nine commands of the engine (spec/30_encoding.md R49; spec/opcode_table.json, nine rows), one constructor a row.
Operands are unsigned bit fields of exactly the width their format gives them (R44 to R48).
-/

namespace Sys2Proof

/-- The commands, in the order of the opcode map (R49). -/
inductive Instr where
  /-- `PUT u`, op 0x01: append one byte, touch no checksum (R70). -/
  | put (u : Byte)
  /-- `PUTC u`, op 0x02: append one byte and fold it into the CRC (R71). -/
  | putc (u : Byte)
  /-- `PUTCA u`, op 0x03: append one byte and fold it into both checksums (R72). -/
  | putca (u : Byte)
  /-- `CHB tag, len`, op 0x10: begin a chunk (R78). -/
  | chb (tag len : Word)
  /-- `CHE`, op 0x11: end the open chunk (R79). -/
  | che
  /-- `ZHDR`, op 0x20: emit the zlib header and seed the Adler sums (R92). -/
  | zhdr
  /-- `BLKHDR final, len`, op 0x21: emit a stored block's framing bytes (R85). `len` is the 32-bit field of R47. -/
  | blkhdr (final : BitVec 1) (len : Word)
  /-- `FILT`, op 0x22: emit the filter byte (R86). -/
  | filt
  /-- `ZTRL`, op 0x23: emit the Adler-32 trailer and close the stream (R93). -/
  | ztrl
  deriving DecidableEq, Repr

end Sys2Proof
end

