-- ==== Sys2Proof/WellFormed.lean ====
section
/-!
DEFINITION. Which command words are legal (spec/30_encoding.md R50), format by format, and the one predicate they make up.

Every term of `Instr` is well-formed by its type (an 8-bit `u`, a 32-bit `tag` and `len`, a 1-bit `final`: R44 to R48), so
the checks here are on the 72-bit WORDS the host presents. This is written from R50's own sentence and not from the
decoder, so that the decoder can be held against it.
-/

namespace Sys2Proof

/-- The four formats of a command word (R44 to R47). -/
inductive Format where
  | B | N | CH | BH
  deriving DecidableEq, Repr

/-- The format an opcode selects; none for the 247 opcodes that are not defined (R49). -/
def opFormat (op : BitVec 8) : Option Format :=
  if op = 0x01 ∨ op = 0x02 ∨ op = 0x03 then some .B
  else if op = 0x10 then some .CH
  else if op = 0x11 ∨ op = 0x20 ∨ op = 0x22 ∨ op = 0x23 then some .N
  else if op = 0x21 then some .BH
  else none

/-- The bits a format marks "reserved, must be 0" are 0 (R50): B `w[63:8]`, N `w[63:0]`, CH none, BH `w[63:33]`. -/
def reservedZero (f : Format) (w : CmdWord) : Bool :=
  match f with
  | .B => w.extractLsb 63 8 == 0
  | .N => w.extractLsb 63 0 == 0
  | .CH => true
  | .BH => w.extractLsb 63 33 == 0

/-- A word is legal when its opcode is one of the nine and its format's reserved bits are 0 (R50). -/
def wordLegal (w : CmdWord) : Bool :=
  match opFormat (w.extractLsb 71 64) with
  | some f => reservedZero f w
  | none => false

end Sys2Proof
end

