-- ==== Sys2Proof/Decode.lean ====
section
/-!
DEFINITION. The command decoder and the encoder (spec/30_encoding.md R42 to R51), and the opcode table as data
(spec/opcode_table.json). The decoder is total on all 2^72 words (R50) and rejects by name; the machine turns a rejection
into `Fault(1)` (spec/60_exceptions.md R119).
-/

namespace Sys2Proof

/-- `op = w[71:64]` (R43). -/
def opField (w : CmdWord) : BitVec 8 := w.extractLsb' 64 8

/-- `x = w[63:32]`, the first operand field (R43). -/
def xField (w : CmdWord) : Word := w.extractLsb' 32 32

/-- `y = w[31:0]`, the second operand field (R43). -/
def yField (w : CmdWord) : Word := w.extractLsb' 0 32

/-- `op_x_y`, the word with the three fields (R43). -/
def packWord (op : BitVec 8) (x y : Word) : CmdWord := op ++ x ++ y

/-- `u = w[7:0]` of format B (R48), taken from the field `y`. -/
def byteOperand (y : Word) : Byte := y.extractLsb' 0 8

/-- Bits 31:8 of `y`, reserved in format B (R44). -/
def byteReserved (y : Word) : BitVec 24 := y.extractLsb' 8 24

/-- `final = w[32]` of format BH (R48), bit 0 of the field `x`. -/
def finalOperand (x : Word) : BitVec 1 := x.extractLsb' 0 1

/-- Bits 63:33 of the word, reserved in format BH (R47): bits 31:1 of `x`. -/
def finalReserved (x : Word) : BitVec 31 := x.extractLsb' 1 31

/-- Why the decoder rejects a word; both are IllegalCommand, code 1 (R50, R119). -/
inductive Illegal where
  /-- The opcode is none of the nine of R49. -/
  | undefinedOpcode (op : BitVec 8)
  /-- A bit the opcode's format marks "reserved, must be 0" is 1. -/
  | reservedBitSet (op : BitVec 8)
  deriving DecidableEq, Repr

/-- Format B: the byte operand, if bits 63:8 are 0 (R44). -/
def decodeB (op : BitVec 8) (x y : Word) (mk : Byte → Instr) : Except Illegal Instr :=
  if x = 0 ∧ byteReserved y = 0 then .ok (mk (byteOperand y)) else .error (.reservedBitSet op)

/-- Format N: no operand, bits 63:0 are 0 (R45). -/
def decodeN (op : BitVec 8) (x y : Word) (i : Instr) : Except Illegal Instr :=
  if x = 0 ∧ y = 0 then .ok i else .error (.reservedBitSet op)

/-- Format BH: final flag and block length, bits 63:33 are 0 (R47). A `len` above 0xFFFF is a legal word (R50). -/
def decodeBH (op : BitVec 8) (x y : Word) : Except Illegal Instr :=
  if finalReserved x = 0 then .ok (.blkhdr (finalOperand x) y) else .error (.reservedBitSet op)

/-- The decoder: all eight opcode bits are matched (R49), operands are plain bit fields (R48). -/
def decode (w : CmdWord) : Except Illegal Instr :=
  let op := opField w
  let x := xField w
  let y := yField w
  if op = 0x01 then decodeB op x y .put
  else if op = 0x02 then decodeB op x y .putc
  else if op = 0x03 then decodeB op x y .putca
  else if op = 0x10 then .ok (.chb x y)
  else if op = 0x11 then decodeN op x y .che
  else if op = 0x20 then decodeN op x y .zhdr
  else if op = 0x21 then decodeBH op x y
  else if op = 0x22 then decodeN op x y .filt
  else if op = 0x23 then decodeN op x y .ztrl
  else .error (.undefinedOpcode op)

/-- The encoder, one line a row of the table of R52. -/
def encode (i : Instr) : CmdWord :=
  match i with
  | .put u => packWord 0x01 0 (u.setWidth 32)
  | .putc u => packWord 0x02 0 (u.setWidth 32)
  | .putca u => packWord 0x03 0 (u.setWidth 32)
  | .chb tag len => packWord 0x10 tag len
  | .che => packWord 0x11 0 0
  | .zhdr => packWord 0x20 0 0
  | .blkhdr final len => packWord 0x21 (final.setWidth 32) len
  | .filt => packWord 0x22 0 0
  | .ztrl => packWord 0x23 0 0

/-- The mnemonic of a command, as R49 and the opcode table spell it. -/
def mnemonic (i : Instr) : String :=
  match i with
  | .put _ => "PUT"
  | .putc _ => "PUTC"
  | .putca _ => "PUTCA"
  | .chb _ _ => "CHB"
  | .che => "CHE"
  | .zhdr => "ZHDR"
  | .blkhdr _ _ => "BLKHDR"
  | .filt => "FILT"
  | .ztrl => "ZTRL"

/-- One row of spec/opcode_table.json: a word is this command's when `w &&& mask = pattern`. -/
structure OpcodeRow where
  name : String
  mask : CmdWord
  pattern : CmdWord
  deriving DecidableEq, Repr

/-- spec/opcode_table.json, copied row by row (match and mask). -/
def opcodeTable : List OpcodeRow :=
  [ ⟨"PUT",    0xFFFFFFFFFFFFFFFF00, 0x010000000000000000⟩,
    ⟨"PUTC",   0xFFFFFFFFFFFFFFFF00, 0x020000000000000000⟩,
    ⟨"PUTCA",  0xFFFFFFFFFFFFFFFF00, 0x030000000000000000⟩,
    ⟨"CHB",    0xFF0000000000000000, 0x100000000000000000⟩,
    ⟨"CHE",    0xFFFFFFFFFFFFFFFFFF, 0x110000000000000000⟩,
    ⟨"ZHDR",   0xFFFFFFFFFFFFFFFFFF, 0x200000000000000000⟩,
    ⟨"BLKHDR", 0xFFFFFFFFFE00000000, 0x210000000000000000⟩,
    ⟨"FILT",   0xFFFFFFFFFFFFFFFFFF, 0x220000000000000000⟩,
    ⟨"ZTRL",   0xFFFFFFFFFFFFFFFFFF, 0x230000000000000000⟩ ]

/-- The 72-bit word whose low `nbits` bits are those of `w` and whose other bits are 0 (a command is one word, R42, R51).
DESIGN CHOICE (log entry 14, safe): bits of `w` above bit 71 are dropped, a command word has none. -/
def tableWord (nbits w : Nat) : CmdWord := BitVec.ofNat 72 (w % 2 ^ nbits)

/-- What the decoder reads from a word numbered as spec/opcode_table.json numbers it; none where it refuses. -/
def decodeTableWord (nbits w : Nat) : Option Instr :=
  match decode (tableWord nbits w) with
  | .ok i => some i
  | .error _ => none

end Sys2Proof
end

