-- ==== Sys2Proof/Machine/Checksum.lean ====
section
/-!
DEFINITION. The two checksum functions as pure functions on register values (spec/40_checksum.md sections 1 and 2), and the
constants they use (spec/00_scope.md R5; spec/10_state.md R16).
-/

namespace Sys2Proof.Machine

/-- The CRC polynomial in reflected form (R5). -/
def crcPoly : Word := 0xEDB88320

/-- The seed `CHB` loads into `C`, all-ones (R5, R78). -/
def crcSeed : Word := 0xFFFFFFFF

/-- The table `T`, a ROM of 16 words (R16; log entry 16: the spec's values, which it marks as general knowledge). -/
def crcTable : Vector Word 16 :=
  #v[0x00000000, 0x1DB71064, 0x3B6E20C8, 0x26D930AC,
     0x76DC4190, 0x6B6B51F4, 0x4DB26158, 0x5005713C,
     0xEDB88320, 0xF00F9344, 0xD6D6A3E8, 0xCB61B38C,
     0x9B64C2B0, 0x86D3D2D4, 0xA00AE278, 0xBDBDF21C]

/-- `T[n]`, the entry a nibble selects (R8, R16). -/
def crcEntry (n : Nibble) : Word := crcTable[n.toNat]'n.isLt

/-- The low nibble `v[3:0]` of a value. -/
def lowNibble {k : Nat} (v : BitVec k) : Nibble := v.extractLsb' 0 4

/-- The high nibble `u[7:4]` of a byte. -/
def highNibble (u : Byte) : Nibble := u.extractLsb' 4 4

/-- `crc_nib(c, n) = (c >> 4) ^ T[c[3:0] ^ n]`, one table step (R59). -/
def crcNib (c : Word) (n : Nibble) : Word := (c >>> 4) ^^^ crcEntry (lowNibble c ^^^ n)

/-- `crc_byte(c, u)`: the low nibble of `u` first, then the high nibble (R60, R62; spec/90_conflicts.md C3). -/
def crcByte (c : Word) (u : Byte) : Word := crcNib (crcNib c (lowNibble u)) (highNibble u)

/-- `crc_bytes(c, bs)`, the left fold of `crc_byte` (R63). -/
def crcBytes (c : Word) (bs : List Byte) : Word := bs.foldl crcByte c

/-- `crc32(bs)`: seeded with all-ones and inverted on output (R63). -/
def crc32 (bs : List Byte) : Word := ~~~(crcBytes crcSeed bs)

/-- One bit-serial round `v <- (v >> 1) ^ (polynomial if v[0] = 1 else 0)` (R16, R65). -/
def crcRound (v : Word) : Word := (v >>> 1) ^^^ (if v.getLsbD 0 then crcPoly else 0)

/-- `n` bit-serial rounds (R16: four make a table entry; R65: eight make a byte). -/
def crcRounds : Nat → Word → Word
  | 0, v => v
  | n + 1, v => crcRounds n (crcRound v)

/-- The Adler modulus (R5). -/
def adlerModulus : Nat := 65521

/-- The seed of `A` that `ZHDR` loads (R5, R92). -/
def adlerSeedA : Half := 1

/-- The seed of `B` that `ZHDR` loads (R5, R92). -/
def adlerSeedB : Half := 0

/-- `(x + y) mod 65521`, the sum unbounded before it is reduced (R6, R66).
DEDUCED (log entry 8): applied by the same formula to a register value above 65520, which no run reaches (R12). -/
def adlerAdd (x y : Nat) : Half := BitVec.ofNat 16 ((x + y) % adlerModulus)

/-- `adler_byte((a, b), u)`: the second sum adds the NEW first sum (R67). -/
def adlerByte (ab : Half × Half) (u : Byte) : Half × Half :=
  let a' := adlerAdd ab.1.toNat u.toNat
  (a', adlerAdd ab.2.toNat a'.toNat)

/-- `adler_bytes((a, b), bs)`, the left fold of `adler_byte` (R68). -/
def adlerBytes (ab : Half × Half) (bs : List Byte) : Half × Half := bs.foldl adlerByte ab

/-- `adler_word(a, b) = (b << 16) | a` within 32 bits (R57, R68). -/
def adlerWord (ab : Half × Half) : Word := (ab.2.setWidth 32 <<< 16) ||| ab.1.setWidth 32

/-- `adler32(bs)` (R68). -/
def adler32 (bs : List Byte) : Word := adlerWord (adlerBytes (adlerSeedA, adlerSeedB) bs)

end Sys2Proof.Machine
end

