-- ==== Sys2Proof/Config.lean ====
section
/-!
DEFINITION. What the spec leaves open. Every parameter of the engine is fixed (spec/00_scope.md R5), so the only thing
that stands here is what a command would read from a register that holds no value (spec/10_state.md R26): a FREE VALUE.

DESIGN CHOICE (log entry 2, safe): the constants below have no body, so nothing in Lean can say what they are; they are
applied to the command index `State.pos`, so each command would read a fresh one. No reachable command reads one (R23 (v)).
-/

namespace Sys2Proof

/-- What a read of `C` gives the command at this index if `C` holds no value (log entry 2). -/
opaque Config.unwrittenC : Nat → Word

/-- What a read of `A` gives the command at this index if `A` holds no value (log entry 2). -/
opaque Config.unwrittenA : Nat → Half

/-- What a read of `B` gives the command at this index if `B` holds no value (log entry 2). -/
opaque Config.unwrittenB : Nat → Half

end Sys2Proof
end

