-- ==== Sys2Proof/Machine/State.lean ====
section
/-!
DEFINITION. The state of the engine (spec/10_state.md R17), what the host has yet to present to it, what it has appended
to its output, and the state after reset (R25, R136). Plain data throughout.
-/

namespace Sys2Proof.Machine

/-- The eight faults of R115, in the order of their codes. -/
inductive FaultCode where
  /-- Code 1: an undefined opcode or a reserved bit set (R119). -/
  | illegalCommand
  /-- Code 2: CHB while a chunk is open (R120). -/
  | chunkAlreadyOpen
  /-- Code 3: a CRC-reading command with no chunk open (R121). -/
  | chunkNotOpen
  /-- Code 4: PUT while a chunk is open (R122). -/
  | rawInChunk
  /-- Code 5: a stream command with no stream open (R123). -/
  | streamNotOpen
  /-- Code 6: ZHDR while a stream is open (R124). -/
  | streamAlreadyOpen
  /-- Code 7: CHE while a stream is open (R125). -/
  | streamOpenAtChunkEnd
  /-- Code 8: BLKHDR with `len > 0xFFFF` (R126). -/
  | lenOverflow
  deriving DecidableEq, Repr

/-- One thing the host does to the engine, between commands (R30, R135, R137). -/
inductive HostInput where
  /-- The host presents a command word on the command port (R30). -/
  | command (w : CmdWord)
  /-- The host asserts the reset pin (R135). -/
  | reset
  deriving DecidableEq, Repr

/-- The engine's registers and flags (R17), its output stream (R31), and the host's side of the command port (R30, R19). -/
structure State where
  /-- `C`, the CRC-32 running state; `none` is the spec's "no value" (R11, R26; log entry 1). -/
  c : Option Word
  /-- `A`, the first Adler-32 sum; `none` is "no value" (R12, R26; log entry 1). -/
  a : Option Half
  /-- `B`, the second Adler-32 sum; `none` is "no value" (R12, R26; log entry 1). -/
  b : Option Half
  /-- `OPEN`: a chunk is open (R13). -/
  isOpen : Bool
  /-- `ZS`: a zlib stream is open (R14). -/
  zs : Bool
  /-- `FLT`: a fault has been recorded since reset (R15). -/
  flt : Bool
  /-- `FCODE`: the code of the recorded fault, 0 if none (R15). -/
  fcode : BitVec 4
  /-- `out`, every byte appended so far, first byte first (R31; log entry 5). -/
  out : List Byte
  /-- What the host has yet to present, first thing first (R30, R135; log entry 3). -/
  input : List HostInput
  /-- The index into the host's command list, the spec's "pc" (R19; log entry 4). -/
  pos : Nat
  deriving DecidableEq, Repr

/-- Reasons the machine could STOP with. There is none: the step function is total (R9, R50), and the engine's own faults
are recorded in `FLT` and `FCODE` while it goes on accepting commands (R117, R118), so they are next states (log entry 12, safe). -/
inductive Fault where
  deriving DecidableEq, Repr

/-- Reasons the model could refuse with. -/
inductive Refusal where
  /-- An instruction that has no meaning yet; raised by the arms of `exec` only, and by none of them now. Safe: it stops. -/
  | notModelled (mnemonic : String)
  deriving DecidableEq, Repr

/-- The machine right after reset, with `out` empty and no command presented yet (R25, R136, R31).
`C`, `A`, `B` hold no value, as R25 says (log entry 1); `pos` starts at 0 (DESIGN CHOICE, log entry 4). -/
def State.reset : State where
  c := none
  a := none
  b := none
  isOpen := false
  zs := false
  flt := false
  fcode := 0
  out := []
  input := []
  pos := 0

end Sys2Proof.Machine
end

