-- ==== Sys2Proof/Machine/Flags.lean ====
section
/-!
DEFINITION. The flags `OPEN`, `ZS`, `FLT`, the fault code and the status port (spec/10_state.md R13, R14, R15, R21;
spec/60_exceptions.md R115). The engine has no arithmetic condition codes (R20), so no flag is computed from a result.
-/

namespace Sys2Proof.Machine

/-- The number `FCODE` holds for each fault (R115). -/
def FaultCode.code (k : FaultCode) : BitVec 4 :=
  match k with
  | .illegalCommand => 1
  | .chunkAlreadyOpen => 2
  | .chunkNotOpen => 3
  | .rawInChunk => 4
  | .streamNotOpen => 5
  | .streamAlreadyOpen => 6
  | .streamOpenAtChunkEnd => 7
  | .lenOverflow => 8

/-- `OPEN <- v` (R13: by CHB, CHE and reset only). -/
def setOpen (v : Bool) (s : State) : State := { s with isOpen := v }

/-- `ZS <- v` (R14: by ZHDR, ZTRL and reset only). -/
def setZs (v : Bool) (s : State) : State := { s with zs := v }

/-- The read-only status port, 7 bits: bit 0 `FLT`, bits 4:1 `FCODE`, bit 5 `OPEN`, bit 6 `ZS` (R21). A read has no side effect. -/
def statusPort (s : State) : BitVec 7 :=
  BitVec.ofBool s.zs ++ BitVec.ofBool s.isOpen ++ s.fcode ++ BitVec.ofBool s.flt

end Sys2Proof.Machine
end

