-- ==== Sys2Proof/Machine/Operands.lean ====
section
/-!
DEFINITION. How an operand or a register value becomes bytes of the output, and the one range check on an operand
(spec/00_scope.md R7; spec/20_memory.md R33; spec/42_stored_block.md R85). Extraction of the operand fields from a command
word (spec/30_encoding.md R48) is the decoder's and stands in Sys2Proof/Decode.lean.
-/

namespace Sys2Proof.Machine

/-- `BE32(v) = [v[31:24], v[23:16], v[15:8], v[7:0]]` (R7). -/
def be32 (v : Word) : List Byte :=
  [v.extractLsb' 24 8, v.extractLsb' 16 8, v.extractLsb' 8 8, v.extractLsb' 0 8]

/-- `LE16(v) = [v[7:0], v[15:8]]` (R7). -/
def le16 (v : Half) : List Byte := [v.extractLsb' 0 8, v.extractLsb' 8 8]

/-- `len <= 0xFFFF`, the operand range check of BLKHDR (R85, R126). -/
def lenFits (len : Word) : Bool := len ≤ 0xFFFF

/-- `L = len[15:0]` (R85). -/
def blockLen (len : Word) : Half := len.extractLsb' 0 16

/-- The five framing bytes of a stored block: header byte, `LE16(L)`, `LE16(~_16(L))` (R54, R85). -/
def blockFraming (final : BitVec 1) (l : Half) : List Byte :=
  [final.setWidth 8] ++ le16 l ++ le16 (~~~l)

/-- The two bytes of the zlib header, constants (R5, R56). -/
def zlibHeader : List Byte := [0x78, 0x01]

/-- The filter byte, a constant generated inside the engine (R5, R86). -/
def filterByte : Byte := 0x00

end Sys2Proof.Machine
end

