-- ==== Sys2Proof/Machine/Ops.lean ====
section
/-!
DEFINITION. The named operations every command is built from: register reads and writes, the three emission paths of
spec/00_scope.md R8, the fault entry and the reset that is the only return from it, the fault lock and the precondition check.
-/

namespace Sys2Proof.Machine

/-- What a command answers. -/
abbrev Result := Host.Outcome State Fault Refusal

/-- Read of `C` (R8). If it holds no value, which no reachable command meets (R23 (v)), a free value (log entry 2). -/
def readC (s : State) : Word := s.c.getD (Config.unwrittenC s.pos)

/-- Read of `A` (R8); a free value where it holds none (log entry 2). -/
def readA (s : State) : Half := s.a.getD (Config.unwrittenA s.pos)

/-- Read of `B` (R8); a free value where it holds none (log entry 2). -/
def readB (s : State) : Half := s.b.getD (Config.unwrittenB s.pos)

/-- `C <- v` (R8). -/
def writeC (v : Word) (s : State) : State := { s with c := some v }

/-- `(A, B) <- ab` (R8). -/
def writeAB (ab : Half × Half) (s : State) : State := { s with a := some ab.1, b := some ab.2 }

/-- `emit(bs)`: append to the output stream, touch no checksum (R8, R31). -/
def emit (bs : List Byte) (s : State) : State := { s with out := s.out ++ bs }

/-- One byte through the CRC path: `emit([u]); C <- crc_byte(C, u)` (R8). -/
def emitCrcByte (s : State) (u : Byte) : State := writeC (crcByte (readC s) u) (emit [u] s)

/-- `emit_crc(bs)`, byte by byte in order (R8). -/
def emitCrc (bs : List Byte) (s : State) : State := bs.foldl emitCrcByte s

/-- One byte through both checksums: `emit([u]); C <- crc_byte(C, u); (A, B) <- adler_byte((A, B), u)` (R8). -/
def emitCrcAdlerByte (s : State) (u : Byte) : State :=
  writeAB (adlerByte (readA s, readB s) u) (emitCrcByte s u)

/-- `emit_crc_adler(bs)`, byte by byte in order (R8). -/
def emitCrcAdler (bs : List Byte) (s : State) : State := bs.foldl emitCrcAdlerByte s

/-- `raise Fault(k)`: `FLT <- 1; FCODE <- k` and nothing else (R117). -/
def raiseFault (k : FaultCode) (s : State) : State := { s with flt := true, fcode := k.code }

/-- The reset pin, the only way out of a fault (R127, R136): the flags and `FCODE` clear, `C`, `A`, `B` hold no value,
`out` is not touched, and the host's command list and its index are the host's own (R19; log entry 4). -/
def applyReset (s : State) : State :=
  { s with c := none, a := none, b := none, isOpen := false, zs := false, flt := false, fcode := 0 }

/-- The fault lock: while `FLT = 1` the command is discarded, no byte and no register write (R118); checked before
everything else (R116, line 1). -/
def unlessLocked (s : State) (rest : Result) : Result := if s.flt then .next s else rest

/-- A precondition of a command: if it does not hold the command ends at once with `Fault(k)` (R8, R116). -/
def require (holds : Bool) (k : FaultCode) (s : State) (rest : Result) : Result :=
  if holds then rest else .next (raiseFault k s)

/-- The engine takes one thing from the host's list (R30). -/
def takeInput (rest : List HostInput) (s : State) : State := { s with input := rest }

/-- The engine accepts one command: it is off the host's list and the index has advanced by exactly one, whether the
command then completes, faults or is discarded (R19, R30). -/
def acceptCommand (rest : List HostInput) (s : State) : State := { s with input := rest, pos := s.pos + 1 }

/-- A word the decoder rejects: `Fault(1)` and nothing else, unless the fault lock discards it (R50, R116, R119). -/
def illegalWord (s : State) : Result := unlessLocked s (.next (raiseFault .illegalCommand s))

/-- Where `step` finds its next command: the head of the host's list (log entry 7). -/
def presentCommand (w : CmdWord) (s : State) : State := { s with input := .command w :: s.input }

end Sys2Proof.Machine
end

