-- ==== Sys2Proof/Machine/Chunk.lean ====
section
/-!
DEFINITION. The chunk framer (spec/41_chunk_framer.md): CHB opens a chunk, CHE closes it. It counts nothing (R82).
-/

namespace Sys2Proof.Machine

/-- CHB tag, len (R78): needs `OPEN = 0`, else ChunkAlreadyOpen; emits the length raw, seeds `C`, emits the tag through
the CRC, sets `OPEN`. Any tag and any length is framed (R83). -/
def execChb (tag len : Word) (s : State) : Result :=
  unlessLocked s <|
  require (!s.isOpen) .chunkAlreadyOpen s <|
  .next (setOpen true (emitCrc (be32 tag) (writeC crcSeed (emit (be32 len) s))))

/-- CHE (R79): needs `OPEN = 1`, else ChunkNotOpen, then `ZS = 0`, else StreamOpenAtChunkEnd; emits the complement of `C`
raw and clears `OPEN`. `C` is read and not written (R26; log entry 9). -/
def execChe (s : State) : Result :=
  unlessLocked s <|
  require s.isOpen .chunkNotOpen s <|
  require (!s.zs) .streamOpenAtChunkEnd s <|
  .next (setOpen false (emit (be32 (~~~(readC s))) s))

end Sys2Proof.Machine
end

