-- ==== Sys2Proof/Machine/Emission.lean ====
section
/-!
DEFINITION. The three commands that move one byte to the output (spec/40_checksum.md section 4): PUT, PUTC, PUTCA.
-/

namespace Sys2Proof.Machine

/-- PUT u (R70): needs `OPEN = 0`, else RawInChunk; appends `u`, no register written. -/
def execPut (u : Byte) (s : State) : Result :=
  unlessLocked s <|
  require (!s.isOpen) .rawInChunk s <|
  .next (emit [u] s)

/-- PUTC u (R71): needs `OPEN = 1`, else ChunkNotOpen; appends `u` and folds it into `C`. -/
def execPutc (u : Byte) (s : State) : Result :=
  unlessLocked s <|
  require s.isOpen .chunkNotOpen s <|
  .next (emitCrc [u] s)

/-- PUTCA u (R72): needs `OPEN = 1`, else ChunkNotOpen, then `ZS = 1`, else StreamNotOpen; appends `u` and folds it into
`C` and `(A, B)`. -/
def execPutca (u : Byte) (s : State) : Result :=
  unlessLocked s <|
  require s.isOpen .chunkNotOpen s <|
  require s.zs .streamNotOpen s <|
  .next (emitCrcAdler [u] s)

end Sys2Proof.Machine
end

