-- ==== Sys2Proof/Machine/StoredBlock.lean ====
section
/-!
DEFINITION. The stored-block packager (spec/42_stored_block.md): BLKHDR and FILT. It counts nothing (R90) and remembers
neither `len` nor `final` (R89).
-/

namespace Sys2Proof.Machine

/-- BLKHDR final, len (R85): needs `OPEN = 1`, else ChunkNotOpen, then `ZS = 1`, else StreamNotOpen, then
`len <= 0xFFFF`, else LenOverflow; emits the five framing bytes through the CRC and not Adler. -/
def execBlkhdr (final : BitVec 1) (len : Word) (s : State) : Result :=
  unlessLocked s <|
  require s.isOpen .chunkNotOpen s <|
  require s.zs .streamNotOpen s <|
  require (lenFits len) .lenOverflow s <|
  .next (emitCrc (blockFraming final (blockLen len)) s)

/-- FILT (R86): needs `OPEN = 1`, else ChunkNotOpen, then `ZS = 1`, else StreamNotOpen; emits the constant filter byte
through both checksums (spec/90_conflicts.md C1). -/
def execFilt (s : State) : Result :=
  unlessLocked s <|
  require s.isOpen .chunkNotOpen s <|
  require s.zs .streamNotOpen s <|
  .next (emitCrcAdler [filterByte] s)

end Sys2Proof.Machine
end

