-- ==== Sys2Proof/Machine/ZlibStream.lean ====
section
/-!
DEFINITION. The zlib stream header generator and the Adler-32 trailer emitter (spec/43_zlib_stream.md): ZHDR and ZTRL.
-/

namespace Sys2Proof.Machine

/-- ZHDR (R92): needs `OPEN = 1`, else ChunkNotOpen, then `ZS = 0`, else StreamAlreadyOpen; emits the two header bytes
through the CRC, seeds `(A, B)` with `(1, 0)`, sets `ZS`. -/
def execZhdr (s : State) : Result :=
  unlessLocked s <|
  require s.isOpen .chunkNotOpen s <|
  require (!s.zs) .streamAlreadyOpen s <|
  .next (setZs true (writeAB (adlerSeedA, adlerSeedB) (emitCrc zlibHeader s)))

/-- ZTRL (R93): needs `OPEN = 1`, else ChunkNotOpen, then `ZS = 1`, else StreamNotOpen; emits `BE32((B << 16) | A)`
through the CRC and clears `ZS`. `A` and `B` are read and not written (R26; log entry 9). -/
def execZtrl (s : State) : Result :=
  unlessLocked s <|
  require s.isOpen .chunkNotOpen s <|
  require s.zs .streamNotOpen s <|
  .next (setZs false (emitCrc (be32 (adlerWord (readA s, readB s))) s))

end Sys2Proof.Machine
end

