-- ==== Sys2Proof/Machine/Dispatch.lean ====
section
/-!
DEFINITION. The meaning of each command, one arm a constructor (spec/30_encoding.md R49).
-/

namespace Sys2Proof.Machine

def exec (i : Instr) (s : State) : Host.Outcome State Fault Refusal :=
  match i with
  | .put u => Sys2Proof.Machine.execPut u s
  | .putc u => Sys2Proof.Machine.execPutc u s
  | .putca u => Sys2Proof.Machine.execPutca u s
  | .chb tag len => Sys2Proof.Machine.execChb tag len s
  | .che => Sys2Proof.Machine.execChe s
  | .zhdr => Sys2Proof.Machine.execZhdr s
  | .blkhdr final len => Sys2Proof.Machine.execBlkhdr final len s
  | .filt => Sys2Proof.Machine.execFilt s
  | .ztrl => Sys2Proof.Machine.execZtrl s

end Sys2Proof.Machine
end

