-- ==== Sys2Proof/Machine/Step.lean ====
section
/-!
DEFINITION. One step of the engine: it takes the next thing the host does and carries it out (spec/00_scope.md R9;
spec/20_memory.md R30; spec/60_exceptions.md R116; spec/70_reset_and_hazards.md R135 to R137).
-/

namespace Sys2Proof.Machine

/-- One step. A command word is accepted (off the host's list, the index advanced, R19), decoded and executed, or is
illegal; the reset pin resets between commands; with nothing presented the engine waits and nothing changes (R30;
DESIGN CHOICE, log entry 6). The fault lock of R116 line 1 stands inside `exec` and `illegalWord`. -/
def step (s : State) : Host.Outcome State Fault Refusal :=
  match s.input with
  | [] => .next s
  | .reset :: rest => .next (applyReset (takeInput rest s))
  | .command w :: rest =>
    match decode w with
    | .ok i => exec i (acceptCommand rest s)
    | .error _ => illegalWord (acceptCommand rest s)

/-- `s` with the word `w` of an opcode-table row presented as the next command (log entry 7). -/
def State.withFetchWord (s : State) (nbits w : Nat) : State := presentCommand (tableWord nbits w) s

end Sys2Proof.Machine
end

