-- ==== Sys2Proof/Machine/Layout.lean ====
section
/-!
DEFINITION. The byte layouts of what the engine emits, as plain functions on byte lists (spec/30_encoding.md Part B, R53 to
R57). The machine does not call these; statements about whole chunks, blocks and streams are put in their terms.
-/

namespace Sys2Proof.Machine

/-- A chunk as the framer lays it out: the DECLARED length, the tag, the data, the CRC-32 over tag and data (R53, R80). -/
def chunkBytes (len tag : Word) (body : List Byte) : List Byte :=
  be32 len ++ be32 tag ++ body ++ be32 (crc32 (be32 tag ++ body))

/-- A chunk is well-formed when its length field is the number of its data bytes (R53, R80). -/
def chunkLengthRight (len : Word) (body : List Byte) : Prop := body.length = len.toNat

/-- A stored block: five framing bytes, then its literal bytes (R54). -/
def storedBlock (final : BitVec 1) (len : Half) (literal : List Byte) : List Byte :=
  blockFraming final len ++ literal

/-- The literal bytes of one scanline: the filter byte, then the row's pixel bytes (R54, R84). -/
def scanline (row : List Byte) : List Byte := filterByte :: row

/-- The stored blocks of a list of rows, the final-block flag on the last one only (R89, R94); `pitch` is each block's `LEN`. -/
def rowBlocks (pitch : Half) : List (List Byte) → List Byte
  | [] => []
  | row :: rows => storedBlock (if rows.isEmpty then 1 else 0) pitch (scanline row) ++ rowBlocks pitch rows

/-- A zlib stream: header, blocks, and the Adler-32 over every literal byte of every block (R55, R57, R94). -/
def zlibStream (pitch : Half) (rows : List (List Byte)) : List Byte :=
  zlibHeader ++ rowBlocks pitch rows ++ be32 (adler32 (rows.flatMap scanline))

end Sys2Proof.Machine
end

