-- ==== Sys2Proof/Machine/HostSequence.lean ====
section
/-!
DEFINITION. The host's encode sequence and its pseudo-instructions (spec/44_host_sequence.md), as lists of commands. They
bind the host and add nothing to the engine (R97): a whole encode is the list `encodeImage` gives, run on the engine.
-/

namespace Sys2Proof.Machine

/-- The image the host holds (R98). -/
structure Image where
  width : Nat
  height : Nat
  hasAlpha : Bool
  /-- Row-major, interleaved per pixel (R32, R98). -/
  pixels : List Byte
  deriving DecidableEq, Repr

/-- 3 for RGB, 4 for RGBA (R99). -/
def channels (img : Image) : Nat := if img.hasAlpha then 4 else 3

/-- The PNG colour type (R99). -/
def colourType (img : Image) : Byte := if img.hasAlpha then 6 else 2

/-- The per-row byte count including the filter byte (R99). -/
def pitch (img : Image) : Nat := img.width * channels img + 1

/-- The IDAT payload length, computed before any command (R99). -/
def idatLen (img : Image) : Nat := 2 + img.height * (5 + pitch img) + 4

/-- Positive dimensions and a pixel list of the right length (R98). -/
def imageWellFormed (img : Image) : Bool :=
  0 < img.width && 0 < img.height && img.pixels.length == img.width * img.height * channels img

/-- Width, height and IDAT length fit their 32-bit fields (R113). -/
def fieldsFit (img : Image) : Bool :=
  img.width < 2 ^ 32 && img.height < 2 ^ 32 && idatLen img < 2 ^ 32

/-- The bound of R100: a row fits the 16-bit stored-block length. A host that wants no output for a wider image tests this
itself; the engine faults at the first BLKHDR otherwise. -/
def rowFits (img : Image) : Bool := pitch img ≤ 0xFFFF

/-- The bytes of row `y`, left to right (R98, R104). -/
def rowPixels (img : Image) (y : Nat) : List Byte :=
  (img.pixels.drop (y * (pitch img - 1))).take (pitch img - 1)

/-- The rows, top row first (R105). -/
def imageRows (img : Image) : List (List Byte) := (List.range img.height).map (rowPixels img)

/-- The tag "IHDR" (R103; log entry 16). -/
def tagIHDR : Word := 0x49484452

/-- The tag "IDAT" (R105; log entry 16). -/
def tagIDAT : Word := 0x49444154

/-- The tag "IEND" (R7, R106; log entry 16). -/
def tagIEND : Word := 0x49454E44

/-- The 8-byte PNG signature (R102; log entry 16). -/
def signature : List Byte := [0x89, 0x50, 0x4E, 0x47, 0x0D, 0x0A, 0x1A, 0x0A]

/-- `PUTC32 v`: four PUTC, most significant byte first (R101). -/
def pseudoPutc32 (v : Word) : List Instr := (be32 v).map .putc

/-- `SIG`: eight PUT (R102). -/
def pseudoSig : List Instr := signature.map .put

/-- The 13-byte IHDR body (R103). -/
def ihdrBody (w h : Word) (ctype : Byte) : List Byte := be32 w ++ be32 h ++ [8, ctype, 0, 0, 0]

/-- `IHDR w, h, ctype` (R103). -/
def pseudoIhdr (w h : Word) (ctype : Byte) : List Instr :=
  [.chb tagIHDR 13] ++ pseudoPutc32 w ++ pseudoPutc32 h ++ [.putc 8, .putc ctype, .putc 0, .putc 0, .putc 0, .che]

/-- `ROW final, pitch, p_1 ... p_(pitch-1)` (R104). -/
def pseudoRow (final : BitVec 1) (len : Word) (row : List Byte) : List Instr :=
  [.blkhdr final len, .filt] ++ row.map .putca

/-- The ROW pseudo-instructions of a list of rows, `final = 1` on the last one only (R104, R105). -/
def pseudoRows (len : Word) : List (List Byte) → List Instr
  | [] => []
  | row :: rows => pseudoRow (if rows.isEmpty then 1 else 0) len row ++ pseudoRows len rows

/-- The stream of a list of rows: ZHDR, the ROWs, ZTRL (R91, R94). -/
def pseudoStream (len : Word) (rows : List (List Byte)) : List Instr :=
  [.zhdr] ++ pseudoRows len rows ++ [.ztrl]

/-- `IDAT w, h, channels, pixels` (R105). -/
def pseudoIdat (img : Image) : List Instr :=
  [.chb tagIDAT (BitVec.ofNat 32 (idatLen img))] ++
  pseudoStream (BitVec.ofNat 32 (pitch img)) (imageRows img) ++ [.che]

/-- `IEND` (R106). -/
def pseudoIend : List Instr := [.chb tagIEND 0, .che]

/-- `ENCODE w, h, has_alpha, pixels` (R107). None for an image whose numbers do not fit their fields or whose pixel list has
the wrong length: the sequence is not defined there (R113; spec/93_implementation_defined.md U2; log entry 13). -/
def encodeImage (img : Image) : Option (List Instr) :=
  if imageWellFormed img && fieldsFit img then
    some (pseudoSig ++
      pseudoIhdr (BitVec.ofNat 32 img.width) (BitVec.ofNat 32 img.height) (colourType img) ++
      pseudoIdat img ++ pseudoIend)
  else none

/-- The file layout that results within the bounds of R100 (R58, R108). -/
def pngFile (img : Image) : List Byte :=
  signature ++
  chunkBytes 13 tagIHDR
    (ihdrBody (BitVec.ofNat 32 img.width) (BitVec.ofNat 32 img.height) (colourType img)) ++
  chunkBytes (BitVec.ofNat 32 (idatLen img)) tagIDAT
    (zlibStream (BitVec.ofNat 16 (pitch img)) (imageRows img)) ++
  chunkBytes 0 tagIEND []

/-- A command list as the host presents it on the port. -/
def present (is : List Instr) : List HostInput := is.map fun i => .command (encode i)

/-- What the host does for one file: nothing if it cannot obtain the sink (SinkUnavailable, R111, R128); else it resets the
engine and then presents its commands (R138). -/
def hostSession (sinkAvailable : Bool) (is : List Instr) : List HostInput :=
  if sinkAvailable then .reset :: present is else []

end Sys2Proof.Machine
end

