-- ==== Sys2Proof/Machine/Assembler.lean ====
section
/-!
DEFINITION. The assembler syntax of a command line (spec/30_encoding.md R52): the mnemonic in capitals, then its operands
separated by commas; decimal or 0x numbers; a tag as a double-quoted string of exactly four characters or a 32-bit number;
`;` starts a comment. The pseudo-instructions of spec/44_host_sequence.md R101 to R107 assemble to their expansions, each
operand checked against its field (R52, R113). Text is a list of characters. Lexical details R52 leaves unsaid: log entry 15.
-/

namespace Sys2Proof.Machine

/-- An operand as written: a number, a double-quoted string, or a bracketed list of numbers (a `pixels` operand, in the form
spec/95_test_vectors.md writes it; DESIGN CHOICE, log entry 15, safe). -/
inductive AsmOperand where
  | number (n : Nat)
  | text (cs : List Char)
  | bytes (ns : List Nat)
  deriving DecidableEq, Repr

/-- The double quote. -/
def quoteChar : Char := Char.ofNat 34

/-- Space or tab. -/
def isBlank (ch : Char) : Bool := ch == ' ' || ch == '\t'

/-- The line without its comment; a `;` inside a quoted string starts none. Every double quote opens or closes one.
DESIGN CHOICE (log entry 15, safe). -/
def stripComment (quoted : Bool) : List Char → List Char
  | [] => []
  | ch :: cs =>
    if ch == ';' && !quoted then []
    else ch :: stripComment (if ch == quoteChar then !quoted else quoted) cs

/-- The text without blanks at either end. -/
def trimBlanks (cs : List Char) : List Char :=
  ((cs.dropWhile isBlank).reverse.dropWhile isBlank).reverse

/-- Whether the text after `ch` is inside brackets; a bracket inside a quoted string is a character of it. -/
def bracketAfter (quoted bracketed : Bool) (ch : Char) : Bool :=
  if quoted then bracketed
  else if ch == '[' then true
  else if ch == ']' then false
  else bracketed

/-- The pieces between commas; a comma inside a quoted string or inside brackets separates nothing. Every double quote opens
or closes a string, so after an odd number of double quotes the commas that follow separate nothing. DESIGN CHOICE (log
entry 15, safe). `acc` is the current piece, reversed. -/
def splitCommas (quoted bracketed : Bool) (acc : List Char) : List Char → List (List Char)
  | [] => [acc.reverse]
  | ch :: cs =>
    if ch == ',' && !quoted && !bracketed then acc.reverse :: splitCommas false false [] cs
    else
      splitCommas (if ch == quoteChar then !quoted else quoted) (bracketAfter quoted bracketed ch) (ch :: acc) cs

/-- The value of a hexadecimal digit. -/
def hexDigit (ch : Char) : Option Nat :=
  let n := ch.toNat
  if 48 ≤ n ∧ n ≤ 57 then some (n - 48)
  else if 65 ≤ n ∧ n ≤ 70 then some (n - 55)
  else if 97 ≤ n ∧ n ≤ 102 then some (n - 87)
  else none

/-- Digits in a base, most significant first. -/
def digitsValue (base acc : Nat) : List Char → Option Nat
  | [] => some acc
  | ch :: cs =>
    match hexDigit ch with
    | some d => if d < base then digitsValue base (acc * base + d) cs else none
    | none => none

/-- A decimal or 0x hexadecimal number (R52). -/
def parseNumber (cs : List Char) : Option Nat :=
  match cs with
  | [] => none
  | ['0', 'x'] => none
  | '0' :: 'x' :: ds => digitsValue 16 0 ds
  | ds => digitsValue 10 0 ds

/-- Numbers separated by commas, possibly none: the inside of a bracketed list (log entry 15). -/
def parseNumbers (cs : List Char) : Option (List Nat) :=
  match trimBlanks cs with
  | [] => some []
  | ds => (splitCommas false false [] ds).mapM fun piece => parseNumber (trimBlanks piece)

/-- An operand: a quoted string, a bracketed list of numbers, or a number. A string runs from the first double quote of the
operand to the last, so double quotes between them are characters of it. DESIGN CHOICE (log entry 15, safe): R52 is silent
on them. -/
def parseOperand (cs : List Char) : Option AsmOperand :=
  match trimBlanks cs with
  | [] => none
  | ch :: rest =>
    if ch == quoteChar then
      match rest.reverse with
      | [] => none
      | last :: inner => if last == quoteChar then some (.text inner.reverse) else none
    else if ch == '[' then
      match rest.reverse with
      | [] => none
      | last :: inner => if last == ']' then (parseNumbers inner.reverse).map .bytes else none
    else (parseNumber (ch :: rest)).map .number

/-- The operands of a line; an empty operand field is no operand. -/
def parseOperands (cs : List Char) : Option (List AsmOperand) :=
  match trimBlanks cs with
  | [] => some []
  | ds => (splitCommas false false [] ds).mapM parseOperand

/-- `n` as a `k`-bit field; none if it does not fit (R52: the assembler rejects it). -/
def fitField (k n : Nat) : Option (BitVec k) := if n < 2 ^ k then some (BitVec.ofNat k n) else none

/-- A tag: exactly four ASCII characters, first character in the top byte, or a 32-bit number (R7, R46, R52). -/
def tagOperand (o : AsmOperand) : Option Word :=
  match o with
  | .number n => fitField 32 n
  | .text [p, q, r, t] =>
    if p.toNat < 128 ∧ q.toNat < 128 ∧ r.toNat < 128 ∧ t.toNat < 128 then
      some (BitVec.ofNat 8 p.toNat ++ BitVec.ofNat 8 q.toNat ++ BitVec.ofNat 8 r.toNat ++ BitVec.ofNat 8 t.toNat)
    else none
  | .text _ => none
  | .bytes _ => none

/-- An operand that is a number of one byte, as PUTC and PUTCA take it (R52: `u > 255` is rejected). -/
def byteNumber (o : AsmOperand) : Option Byte :=
  match o with
  | .number n => fitField 8 n
  | .text _ => none
  | .bytes _ => none

/-- The command a mnemonic and its operands stand for; rejects `u > 255`, `final > 1`, `len > 0xFFFFFFFF` and a tag that is
not four bytes, and does not reject BLKHDR with `len > 0xFFFF` (R52). -/
def assembleCommand (name : List Char) (os : List AsmOperand) : Option Instr :=
  if name = ['P', 'U', 'T'] then
    match os with
    | [.number u] => (fitField 8 u).map .put
    | _ => none
  else if name = ['P', 'U', 'T', 'C'] then
    match os with
    | [.number u] => (fitField 8 u).map .putc
    | _ => none
  else if name = ['P', 'U', 'T', 'C', 'A'] then
    match os with
    | [.number u] => (fitField 8 u).map .putca
    | _ => none
  else if name = ['C', 'H', 'B'] then
    match os with
    | [t, .number len] => (tagOperand t).bind fun tag => (fitField 32 len).map (.chb tag)
    | _ => none
  else if name = ['B', 'L', 'K', 'H', 'D', 'R'] then
    match os with
    | [.number f, .number len] => (fitField 1 f).bind fun final => (fitField 32 len).map (.blkhdr final)
    | _ => none
  else if os ≠ [] then none
  else if name = ['C', 'H', 'E'] then some .che
  else if name = ['Z', 'H', 'D', 'R'] then some .zhdr
  else if name = ['F', 'I', 'L', 'T'] then some .filt
  else if name = ['Z', 'T', 'R', 'L'] then some .ztrl
  else none

/-- `PUTC32 v`, rejected where `v` does not fit 32 bits (R101, R113). -/
def assemblePutc32 (v : Nat) : Option (List Instr) := (fitField 32 v).map pseudoPutc32

/-- `IHDR w, h, ctype`, rejected where a PUTC32 or the PUTC of its expansion is (R103, R113). -/
def assembleIhdr (w h ctype : Nat) : Option (List Instr) :=
  (fitField 32 w).bind fun w => (fitField 32 h).bind fun h => (fitField 8 ctype).map (pseudoIhdr w h)

/-- `ROW final, pitch, p_1 ... p_(pitch-1)`, rejected where a command of its expansion is or where the bytes are not
`pitch - 1` in number (R104; log entry 15). -/
def assembleRow (final len : Nat) (ps : List AsmOperand) : Option (List Instr) :=
  if ps.length + 1 = len then
    (fitField 1 final).bind fun final => (fitField 32 len).bind fun len => (ps.mapM byteNumber).map (pseudoRow final len)
  else none

/-- `IDAT w, h, channels, pixels`, rejected where its CHB is (R113), where `channels` is not 3 or 4 (R98), or where the pixel
list is not that of a `w` by `h` image (log entry 13). -/
def assembleIdat (w h ch : Nat) (px : List Nat) : Option (List Instr) :=
  if ch = 3 ∨ ch = 4 then
    (px.mapM (fitField 8)).bind fun pixels =>
      let img : Image := ⟨w, h, ch == 4, pixels⟩
      if imageWellFormed img && idatLen img < 2 ^ 32 then some (pseudoIdat img) else none
  else none

/-- `ENCODE w, h, has_alpha, pixels`, `has_alpha` 0 or 1, rejected where a command of its expansion is (R107, R113; log
entry 13). -/
def assembleEncode (w h alpha : Nat) (px : List Nat) : Option (List Instr) :=
  (fitField 1 alpha).bind fun alpha => (px.mapM (fitField 8)).bind fun pixels => encodeImage ⟨w, h, alpha == 1, pixels⟩

/-- The expansion of a pseudo-instruction, or a rejection (R52, R101 to R107, R113). -/
def assemblePseudo (name : List Char) (os : List AsmOperand) : Option (List Instr) :=
  if name = ['P', 'U', 'T', 'C', '3', '2'] then
    match os with
    | [.number v] => assemblePutc32 v
    | _ => none
  else if name = ['I', 'H', 'D', 'R'] then
    match os with
    | [.number w, .number h, .number ctype] => assembleIhdr w h ctype
    | _ => none
  else if name = ['R', 'O', 'W'] then
    match os with
    | .number final :: .number len :: ps => assembleRow final len ps
    | _ => none
  else if name = ['I', 'D', 'A', 'T'] then
    match os with
    | [.number w, .number h, .number ch, .bytes px] => assembleIdat w h ch px
    | _ => none
  else if name = ['E', 'N', 'C', 'O', 'D', 'E'] then
    match os with
    | [.number w, .number h, .number alpha, .bytes px] => assembleEncode w h alpha px
    | _ => none
  else if os ≠ [] then none
  else if name = ['S', 'I', 'G'] then some pseudoSig
  else if name = ['I', 'E', 'N', 'D'] then some pseudoIend
  else none

/-- The commands a mnemonic and its operands stand for: one for a command of R49, the expansion for a pseudo-instruction
(R52). No name is both. -/
def assembleInstrs (name : List Char) (os : List AsmOperand) : Option (List Instr) :=
  match assembleCommand name os with
  | some i => some [i]
  | none => assemblePseudo name os

/-- One line of assembler text: its commands, none in the list for a blank or comment line; rejected as a whole where a
mnemonic or an operand is (R52). -/
def assembleLine (line : List Char) : Option (List Instr) :=
  match trimBlanks (stripComment false line) with
  | [] => some []
  | cs =>
    let name := cs.takeWhile (fun ch => !isBlank ch)
    (parseOperands (cs.dropWhile fun ch => !isBlank ch)).bind (assembleInstrs name)

/-- The words a line assembles to (R52, second column). -/
def assembleWord (line : List Char) : Option (List CmdWord) := (assembleLine line).map (·.map encode)

end Sys2Proof.Machine
end

