-- ==== Sys2Proof/Safety.lean ====
section
/-!
DEFINITION. The terms the statements use: the invariants of R23, the priority of R116 read off the command word, runs of a
list of commands, the end of a run (R147), which bytes a command sends to Adler (R69), and what is unobservable (R26).
-/

namespace Sys2Proof.Machine

/-- A register of the Adler pair holds no value or a value in 0 to 65520 (R12). -/
def adlerInRange (r : Option Half) : Prop := ∀ v, r = some v → v.toNat < adlerModulus

/-- The invariants of every state reachable from reset: R23 (i) to (iv), and the range of `A` and `B` (R12). -/
structure EngineInv (s : State) : Prop where
  /-- R23 (i). -/
  openHasC : s.isOpen = true → s.c.isSome = true
  /-- R23 (ii), the values. -/
  streamHasA : s.zs = true → s.a.isSome = true
  /-- R23 (ii), the values. -/
  streamHasB : s.zs = true → s.b.isSome = true
  /-- R12 and R23 (ii), the range. -/
  rangeA : adlerInRange s.a
  /-- R12 and R23 (ii), the range. -/
  rangeB : adlerInRange s.b
  /-- R23 (iii). -/
  streamInChunk : s.zs = true → s.isOpen = true
  /-- R15, R23 (iv). -/
  noFaultNoCode : s.flt = false → s.fcode = 0
  /-- R15, R23 (iv). -/
  faultHasCode : s.flt = true → 1 ≤ s.fcode.toNat ∧ s.fcode.toNat ≤ 8

/-- The first failing check of R116, lines 2 to 5, for a word and the two flags, read off the table of R115: illegal word,
then the `OPEN` check, then the `ZS` check, then the operand range. -/
def firstFailingCheck (w : CmdWord) (isOpen zs : Bool) : Option FaultCode :=
  let op := w.extractLsb 71 64
  if wordLegal w = false then some .illegalCommand
  else if op = 0x10 ∧ isOpen = true then some .chunkAlreadyOpen
  else if op = 0x01 ∧ isOpen = true then some .rawInChunk
  else if op ≠ 0x10 ∧ op ≠ 0x01 ∧ isOpen = false then some .chunkNotOpen
  else if (op = 0x03 ∨ op = 0x22 ∨ op = 0x21 ∨ op = 0x23) ∧ zs = false then some .streamNotOpen
  else if op = 0x20 ∧ zs = true then some .streamAlreadyOpen
  else if op = 0x11 ∧ zs = true then some .streamOpenAtChunkEnd
  else if op = 0x21 ∧ 0xFFFF < (w.extractLsb 31 0).toNat then some .lenOverflow
  else none

/-- How many bytes a command appends when it executes (R36). -/
def byteCount (i : Instr) : Nat :=
  match i with
  | .put _ | .putc _ | .putca _ | .filt => 1
  | .zhdr => 2
  | .che | .ztrl => 4
  | .blkhdr _ _ => 5
  | .chb _ _ => 8

/-- The bytes of a command that enter the Adler sums: the pixel byte of PUTCA and the filter byte (R69). -/
def adlerInput (i : Instr) : List Byte :=
  match i with
  | .putca u => [u]
  | .filt => [filterByte]
  | _ => []

/-- Run a list of commands, in order, each as one `exec` (R9, R39). -/
def runCommands : List Instr → State → Result
  | [], s => .next s
  | i :: is, s =>
    match exec i s with
    | .next t => runCommands is t
    | .fault r => .fault r
    | .refused r => .refused r

/-- Run a number of steps, in order (R9, R39). -/
def runSteps : Nat → State → Result
  | 0, s => .next s
  | n + 1, s =>
    match step s with
    | .next t => runSteps n t
    | .fault r => .fault r
    | .refused r => .refused r

/-- A run is completed: no more commands, and `FLT`, `OPEN` and `ZS` are 0 (R147). That a reset the host has yet to assert
keeps a run from having ended, here and in `Faulted` and `Unfinished`, is the model's: DESIGN CHOICE (log entry 17, unsafe
for claims that a run is not faulted or not unfinished). -/
def Completed (s : State) : Prop := s.input = [] ∧ s.flt = false ∧ s.isOpen = false ∧ s.zs = false

/-- A run is faulted (R147). A pending reset counts as not ended: DESIGN CHOICE (log entry 17, unsafe for claims that a run
is not faulted). -/
def Faulted (s : State) : Prop := s.input = [] ∧ s.flt = true

/-- A run is unfinished: it ends with a chunk or a stream open, whatever `FLT` is, so that a run can be faulted and
unfinished (R147). A pending reset counts as not ended: DESIGN CHOICE (log entry 17, unsafe for claims that a run is not
unfinished). -/
def Unfinished (s : State) : Prop := s.input = [] ∧ (s.isOpen = true ∨ s.zs = true)

/-- The bytes a stretch appended: `t.out` is `s.out` followed by `bs` (R31). -/
def Appended (bs : List Byte) (s t : State) : Prop := t.out = s.out ++ bs

/-- Two states differ at most in what R26 calls unobservable: the value of `C` while no chunk is open, and the values of
`A` and `B` while no stream is open. -/
structure SameObservable (s t : State) : Prop where
  isOpen : s.isOpen = t.isOpen
  zs : s.zs = t.zs
  flt : s.flt = t.flt
  fcode : s.fcode = t.fcode
  out : s.out = t.out
  input : s.input = t.input
  pos : s.pos = t.pos
  c : s.isOpen = true → s.c = t.c
  a : s.zs = true → s.a = t.a
  b : s.zs = true → s.b = t.b

end Sys2Proof.Machine
end

