-- ==== Sys2Proof/Certificates/Slice0/Obligations.lean ====
section
/-!
DEFINITION. The statements for the provers. Every statement follows a rule of spec/ named in its docstring. Results are
written as whole next states (record updates), so that each also says what the command leaves unchanged.
-/

open Sys2Proof Sys2Proof.Machine

/-! ### Encoding -/

/-- A few words of every format, written out from R44 to R47 and R52, decode to their commands, and their nearest illegal
neighbours are refused by name (spec/95_test_vectors.md section 2.8). -/
def Obligations.KnownWordsDecode : Prop :=
  decode 0x0100000000000000FF = .ok (.put 0xFF) ∧
  decode 0x010000000000000100 = .error (.reservedBitSet 0x01) ∧
  decode 0x020000000000000008 = .ok (.putc 0x08) ∧
  decode 0x03000000000000007F = .ok (.putca 0x7F) ∧
  decode 0x1049454E4400000000 = .ok (.chb 0x49454E44 0) ∧
  decode 0x110000000000000000 = .ok .che ∧
  decode 0x110000000000000001 = .error (.reservedBitSet 0x11) ∧
  decode 0x200000000000000000 = .ok .zhdr ∧
  decode 0x210000000100000005 = .ok (.blkhdr 1 5) ∧
  decode 0x210000000200000005 = .error (.reservedBitSet 0x21) ∧
  decode 0x220000000000000000 = .ok .filt ∧
  decode 0x230000000000000000 = .ok .ztrl ∧
  decode 0x810000000000000000 = .error (.undefinedOpcode 0x81)

/-- R50: exact legality per format, for the decoder and for the predicate `wordLegal`; and an illegal word presented with
`FLT = 0` raises `Fault(1)` and does nothing else, whatever the other registers hold. -/
def Obligations.LegalityIsExact : Prop :=
  ∀ w : CmdWord,
    let op := w.extractLsb 71 64
    let legal : Prop :=
      ((op = 0x01 ∨ op = 0x02 ∨ op = 0x03) ∧ w.extractLsb 63 8 = 0) ∨
      ((op = 0x11 ∨ op = 0x20 ∨ op = 0x22 ∨ op = 0x23) ∧ w.extractLsb 63 0 = 0) ∨
      op = 0x10 ∨
      (op = 0x21 ∧ w.extractLsb 63 33 = 0)
    ((∃ i, decode w = .ok i) ↔ legal) ∧
    (wordLegal w = true ↔ legal) ∧
    ∀ (s : State) (rest : List HostInput), s.input = .command w :: rest → s.flt = false → ¬ legal →
      step s = .next { s with input := rest, pos := s.pos + 1, flt := true, fcode := 1 }

/-- Decoding what the encoder writes gives the command back, at every operand value (R42 to R48, R52): no operand bit is
dropped. -/
def Obligations.DecodeInvertsEncode : Prop :=
  ∀ i : Instr, decode (encode i) = .ok i

/-- A word that decodes is the only word of its command: encoding the command gives the word back, so no two words mean the
same command (R42 to R50). -/
def Obligations.EncodeInvertsDecode : Prop :=
  ∀ (w : CmdWord) (i : Instr), decode w = .ok i → encode i = w

/-- A word matches a row of the opcode table, mask and pattern, exactly when it decodes to a command of that row's mnemonic
(spec/opcode_table.json; R49). -/
def Obligations.DecoderMatchesOpcodeTable : Prop :=
  ∀ (w : CmdWord) (row : OpcodeRow), row ∈ opcodeTable →
    (w &&& row.mask = row.pattern ↔ ∃ i, decode w = .ok i ∧ mnemonic i = row.name)

/-- R48: operands are the plain unsigned fields `u = w[7:0]`, `tag = w[63:32]`, `len = w[31:0]`, `final = w[32]` of the
word. -/
def Obligations.OperandsArePlainFields : Prop :=
  ∀ (w : CmdWord) (i : Instr), decode w = .ok i →
    match i with
    | .put u | .putc u | .putca u => u = w.extractLsb 7 0
    | .chb tag len => tag = w.extractLsb 63 32 ∧ len = w.extractLsb 31 0
    | .blkhdr final len => final = w.extractLsb 32 32 ∧ len = w.extractLsb 31 0
    | .che | .zhdr | .filt | .ztrl => True

/-- R52: the assembler rejects `u > 255`, `final > 1`, `len > 0xFFFFFFFF` and a tag number above 32 bits, and accepts the
rest, `BLKHDR` with `len > 0xFFFF` included. -/
def Obligations.AssemblerRejectsOutOfRange : Prop :=
  ∀ u f n t : Nat,
    (assembleCommand ['P', 'U', 'T'] [.number u] = if u ≤ 255 then some (.put (BitVec.ofNat 8 u)) else none) ∧
    (assembleCommand ['P', 'U', 'T', 'C'] [.number u] = if u ≤ 255 then some (.putc (BitVec.ofNat 8 u)) else none) ∧
    (assembleCommand ['P', 'U', 'T', 'C', 'A'] [.number u] =
      if u ≤ 255 then some (.putca (BitVec.ofNat 8 u)) else none) ∧
    (assembleCommand ['C', 'H', 'B'] [.number t, .number n] =
      if t ≤ 0xFFFFFFFF ∧ n ≤ 0xFFFFFFFF then some (.chb (BitVec.ofNat 32 t) (BitVec.ofNat 32 n)) else none) ∧
    (assembleCommand ['B', 'L', 'K', 'H', 'D', 'R'] [.number f, .number n] =
      if f ≤ 1 ∧ n ≤ 0xFFFFFFFF then some (.blkhdr (BitVec.ofNat 1 f) (BitVec.ofNat 32 n)) else none)

/-- R101, R103, R113: the assembler takes `PUTC32 v` exactly when `v` fits 32 bits, and it is the four PUTC of `v`, most
significant byte first; it takes `IHDR w, h, ctype` exactly when `w` and `h` fit 32 bits and `ctype` fits a byte, and it is
the 15 commands of R103. That a `ctype` other than 2 and 6 is taken is the model's choice, log entry 15 (DESIGN CHOICE);
that the IHDR fields are most significant byte first is log entry 16. -/
def Obligations.PseudoInstructionsRejectOutOfRange : Prop :=
  ∀ v w h ctype : Nat,
    (assembleInstrs ['P', 'U', 'T', 'C', '3', '2'] [.number v] =
      if v ≤ 0xFFFFFFFF then
        some [.putc (BitVec.ofNat 8 (v / 2 ^ 24)), .putc (BitVec.ofNat 8 (v / 2 ^ 16)), .putc (BitVec.ofNat 8 (v / 2 ^ 8)),
          .putc (BitVec.ofNat 8 v)]
      else none) ∧
    (assembleInstrs ['I', 'H', 'D', 'R'] [.number w, .number h, .number ctype] =
      if w ≤ 0xFFFFFFFF ∧ h ≤ 0xFFFFFFFF ∧ ctype ≤ 255 then
        some [.chb 0x49484452 13,
          .putc (BitVec.ofNat 8 (w / 2 ^ 24)), .putc (BitVec.ofNat 8 (w / 2 ^ 16)), .putc (BitVec.ofNat 8 (w / 2 ^ 8)),
          .putc (BitVec.ofNat 8 w),
          .putc (BitVec.ofNat 8 (h / 2 ^ 24)), .putc (BitVec.ofNat 8 (h / 2 ^ 16)), .putc (BitVec.ofNat 8 (h / 2 ^ 8)),
          .putc (BitVec.ofNat 8 h),
          .putc 8, .putc (BitVec.ofNat 8 ctype), .putc 0, .putc 0, .putc 0, .che]
      else none)

/-! ### The checksum functions -/

/-- R16, the derivation of `T`: entry `n` is `n` after four bit-serial rounds. -/
def Obligations.TableEntriesAreFourRounds : Prop :=
  ∀ n : Nibble, crcEntry n = crcRounds 4 (n.setWidth 32)

/-- The equivalent form of R61: the byte is exclusive-ored into the state once and two steps index with the state alone. -/
def Obligations.CrcByteFoldsByteOnce : Prop :=
  ∀ (c : Word) (u : Byte), crcByte c u = crcNib (crcNib (c ^^^ u.setWidth 32) 0) 0

/-- The bit-serial characterisation of R65: eight rounds from `c ^ u`, for every state and byte. -/
def Obligations.CrcByteIsEightRounds : Prop :=
  ∀ (c : Word) (u : Byte), crcByte c u = crcRounds 8 (c ^^^ u.setWidth 32)

/-- Linearity (R65), over whole byte lists: the CRC of two equally long lists exclusive-ored byte by byte. -/
def Obligations.CrcIsLinear : Prop :=
  ∀ (c1 c2 : Word) (us : List (Byte × Byte)),
    crcBytes (c1 ^^^ c2) (us.map fun p => p.1 ^^^ p.2) =
      crcBytes c1 (us.map Prod.fst) ^^^ crcBytes c2 (us.map Prod.snd)

/-- R67: for `a`, `b` in 0 to 65520 the two sums are `a' = (a + u) mod 65521` and `b' = (b + a') mod 65521`, with the NEW
`a'`; nothing is lost at 16 bits. -/
def Obligations.AdlerByteSums : Prop :=
  ∀ (a b : Half) (u : Byte), a.toNat ≤ 65520 → b.toNat ≤ 65520 →
    (adlerByte (a, b) u).1.toNat = (a.toNat + u.toNat) % 65521 ∧
    (adlerByte (a, b) u).2.toNat = (b.toNat + (adlerByte (a, b) u).1.toNat) % 65521

/-- The closed form of R68: after `u_1 ... u_n` from the seed `(1, 0)`, `a = (1 + sum u_i) mod 65521` and
`b = (n + n*u_1 + (n-1)*u_2 + ... + u_n) mod 65521`. -/
def Obligations.AdlerClosedForm : Prop :=
  ∀ us : List Byte,
    (adlerBytes (1, 0) us).1.toNat = (1 + (us.map fun u => u.toNat).sum) % 65521 ∧
    (adlerBytes (1, 0) us).2.toNat =
      (us.length + (us.zipIdx.map fun p => (us.length - p.2) * p.1.toNat).sum) % 65521

/-! ### What each command does -/

/-- R70, PUT: format B, op 0x01; with `OPEN = 0` it appends `u` and changes nothing else; with `OPEN = 1`, `Fault(4)`. -/
def Obligations.PutResult : Prop :=
  ∀ (u : Byte) (s : State),
    decode (packWord 0x01 0 (u.setWidth 32)) = .ok (.put u) ∧
    (s.flt = false → s.isOpen = false →
      exec (.put u) s = .next { s with out := s.out ++ [u] }) ∧
    (s.flt = false → s.isOpen = true →
      exec (.put u) s = .next { s with flt := true, fcode := 4 })

/-- R71, PUTC: format B, op 0x02; with `OPEN = 1` (so `C` holds a value, R23 (i)) it appends `u` and `C` becomes
`crc_byte(C, u)`, whatever `ZS` is; with `OPEN = 0`, `Fault(3)`. -/
def Obligations.PutcResult : Prop :=
  ∀ (u : Byte) (s : State),
    decode (packWord 0x02 0 (u.setWidth 32)) = .ok (.putc u) ∧
    (∀ c, s.flt = false → s.isOpen = true → s.c = some c →
      exec (.putc u) s = .next { s with out := s.out ++ [u], c := some (crcByte c u) }) ∧
    (s.flt = false → s.isOpen = false →
      exec (.putc u) s = .next { s with flt := true, fcode := 3 })

/-- R72, PUTCA: format B, op 0x03; with `OPEN = ZS = 1` (so `C`, `A`, `B` hold values, the sums in range, R23) it appends
`u` and folds it into `C` and `(A, B)`; else `Fault(3)`, then `Fault(5)`. -/
def Obligations.PutcaResult : Prop :=
  ∀ (u : Byte) (s : State),
    decode (packWord 0x03 0 (u.setWidth 32)) = .ok (.putca u) ∧
    (∀ c a b, s.flt = false → s.isOpen = true → s.zs = true →
      s.c = some c → s.a = some a → s.b = some b → a.toNat ≤ 65520 → b.toNat ≤ 65520 →
      exec (.putca u) s =
        .next { s with
          out := s.out ++ [u]
          c := some (crcByte c u)
          a := some (BitVec.ofNat 16 ((a.toNat + u.toNat) % 65521))
          b := some (BitVec.ofNat 16 ((b.toNat + (a.toNat + u.toNat) % 65521) % 65521)) }) ∧
    (s.flt = false → s.isOpen = false →
      exec (.putca u) s = .next { s with flt := true, fcode := 3 }) ∧
    (s.flt = false → s.isOpen = true → s.zs = false →
      exec (.putca u) s = .next { s with flt := true, fcode := 5 })

/-- R78, CHB: format CH, op 0x10; with `OPEN = 0` it appends `BE32(len)` then `BE32(tag)`, `C` becomes the all-ones seed with
the four tag bytes folded in whatever it held, `OPEN` becomes 1 (and `ZS` is 0 in every state that meets the invariants);
with `OPEN = 1`, `Fault(2)`. -/
def Obligations.ChbResult : Prop :=
  ∀ (tag len : Word) (s : State),
    decode (packWord 0x10 tag len) = .ok (.chb tag len) ∧
    (s.flt = false → s.isOpen = false →
      exec (.chb tag len) s =
        .next { s with
          out := s.out ++
            [len.extractLsb 31 24, len.extractLsb 23 16, len.extractLsb 15 8, len.extractLsb 7 0,
             tag.extractLsb 31 24, tag.extractLsb 23 16, tag.extractLsb 15 8, tag.extractLsb 7 0]
          c := some (crcByte (crcByte (crcByte (crcByte 0xFFFFFFFF (tag.extractLsb 31 24))
            (tag.extractLsb 23 16)) (tag.extractLsb 15 8)) (tag.extractLsb 7 0))
          isOpen := true }) ∧
    (EngineInv s → s.isOpen = false → s.zs = false) ∧
    (s.flt = false → s.isOpen = true →
      exec (.chb tag len) s = .next { s with flt := true, fcode := 2 })

/-- R79, CHE: format N, op 0x11; with `OPEN = 1` (so `C` holds a value) and `ZS = 0` it appends `BE32(~C)`, clears `OPEN` and
leaves `C`; else `Fault(3)`, then `Fault(7)`. -/
def Obligations.CheResult : Prop :=
  decode (packWord 0x11 0 0) = .ok .che ∧
  ∀ s : State,
    (∀ c, s.flt = false → s.isOpen = true → s.zs = false → s.c = some c →
      exec .che s =
        .next { s with
          out := s.out ++ [(~~~c).extractLsb 31 24, (~~~c).extractLsb 23 16, (~~~c).extractLsb 15 8, (~~~c).extractLsb 7 0]
          isOpen := false }) ∧
    (s.flt = false → s.isOpen = false →
      exec .che s = .next { s with flt := true, fcode := 3 }) ∧
    (s.flt = false → s.isOpen = true → s.zs = true →
      exec .che s = .next { s with flt := true, fcode := 7 })

/-- R92, ZHDR: format N, op 0x20; with `OPEN = 1` (so `C` holds a value) and `ZS = 0` it appends 78 01 through the CRC, seeds
`(A, B)` with `(1, 0)` whatever they held, sets `ZS`; else `Fault(3)`, then `Fault(6)`. -/
def Obligations.ZhdrResult : Prop :=
  decode (packWord 0x20 0 0) = .ok .zhdr ∧
  ∀ s : State,
    (∀ c, s.flt = false → s.isOpen = true → s.zs = false → s.c = some c →
      exec .zhdr s =
        .next { s with
          out := s.out ++ [0x78, 0x01]
          c := some (crcByte (crcByte c 0x78) 0x01)
          a := some 1
          b := some 0
          zs := true }) ∧
    (s.flt = false → s.isOpen = false →
      exec .zhdr s = .next { s with flt := true, fcode := 3 }) ∧
    (s.flt = false → s.isOpen = true → s.zs = true →
      exec .zhdr s = .next { s with flt := true, fcode := 6 })

/-- R85, BLKHDR: format BH, op 0x21; with `OPEN = ZS = 1` (so `C` holds a value) and `len <= 0xFFFF` it appends the header
byte, `LE16(L)` and `LE16(~L)` through the CRC and leaves `A`, `B`; the two length fields are bitwise complements; else
`Fault(3)`, then `Fault(5)`, then `Fault(8)`. -/
def Obligations.BlkhdrResult : Prop :=
  ∀ (final : BitVec 1) (len : Word) (s : State),
    let l : Half := len.extractLsb 15 0
    let framing : List Byte :=
      [final.setWidth 8, l.extractLsb 7 0, l.extractLsb 15 8, (~~~l).extractLsb 7 0, (~~~l).extractLsb 15 8]
    decode (packWord 0x21 (final.setWidth 32) len) = .ok (.blkhdr final len) ∧
    (∀ c, s.flt = false → s.isOpen = true → s.zs = true → s.c = some c → len.toNat ≤ 0xFFFF →
      exec (.blkhdr final len) s = .next { s with out := s.out ++ framing, c := some (crcBytes c framing) }) ∧
    (l ^^^ ~~~l = 0xFFFF ∧ l.toNat + (~~~l).toNat = 0xFFFF) ∧
    (s.flt = false → s.isOpen = false →
      exec (.blkhdr final len) s = .next { s with flt := true, fcode := 3 }) ∧
    (s.flt = false → s.isOpen = true → s.zs = false →
      exec (.blkhdr final len) s = .next { s with flt := true, fcode := 5 }) ∧
    (s.flt = false → s.isOpen = true → s.zs = true → 0xFFFF < len.toNat →
      exec (.blkhdr final len) s = .next { s with flt := true, fcode := 8 })

/-- R86, FILT: format N, op 0x22; with `OPEN = ZS = 1` (so `C`, `A`, `B` hold values, the sums in range) it appends the
constant 00 through both checksums, which leaves `A` and makes `B` become `(B + A) mod 65521`; else `Fault(3)`, then
`Fault(5)`; and it is `PUTCA 0` in every state. -/
def Obligations.FiltResult : Prop :=
  decode (packWord 0x22 0 0) = .ok .filt ∧
  ∀ s : State,
    (∀ c a b, s.flt = false → s.isOpen = true → s.zs = true →
      s.c = some c → s.a = some a → s.b = some b → a.toNat ≤ 65520 → b.toNat ≤ 65520 →
      adlerByte (a, b) 0x00 = (a, BitVec.ofNat 16 ((b.toNat + a.toNat) % 65521)) ∧
      exec .filt s =
        .next { s with
          out := s.out ++ [0x00]
          c := some (crcByte c 0x00)
          a := some (adlerByte (a, b) 0x00).1
          b := some (adlerByte (a, b) 0x00).2 }) ∧
    (s.flt = false → s.isOpen = false →
      exec .filt s = .next { s with flt := true, fcode := 3 }) ∧
    (s.flt = false → s.isOpen = true → s.zs = false →
      exec .filt s = .next { s with flt := true, fcode := 5 }) ∧
    exec .filt s = exec (.putca 0) s

/-- R93, ZTRL: format N, op 0x23; with `OPEN = ZS = 1` (so `C`, `A`, `B` hold values) it appends
`[B[15:8], B[7:0], A[15:8], A[7:0]]` through the CRC, leaves `A`, `B`, clears `ZS`; else `Fault(3)`, then `Fault(5)`. -/
def Obligations.ZtrlResult : Prop :=
  decode (packWord 0x23 0 0) = .ok .ztrl ∧
  ∀ s : State,
    (∀ c a b, s.flt = false → s.isOpen = true → s.zs = true →
      s.c = some c → s.a = some a → s.b = some b →
      exec .ztrl s =
        .next { s with
          out := s.out ++ [b.extractLsb 15 8, b.extractLsb 7 0, a.extractLsb 15 8, a.extractLsb 7 0]
          c := some (crcBytes c [b.extractLsb 15 8, b.extractLsb 7 0, a.extractLsb 15 8, a.extractLsb 7 0])
          zs := false }) ∧
    (s.flt = false → s.isOpen = false →
      exec .ztrl s = .next { s with flt := true, fcode := 3 }) ∧
    (s.flt = false → s.isOpen = true → s.zs = false →
      exec .ztrl s = .next { s with flt := true, fcode := 5 })

/-! ### One step -/

/-- A step runs the decoded command: when the word at the head of the host's list decodes to `i`, the step is `exec i` in the
state in which the engine has accepted that word (it is off the list and the command index has advanced by one). -/
def Obligations.StepRunsDecodedCommand : Prop :=
  ∀ (s : State) (w : CmdWord) (rest : List HostInput) (i : Instr),
    s.input = .command w :: rest → decode w = .ok i →
    step s = exec i { s with input := rest, pos := s.pos + 1 }

/-- The step function is total: every state has a next state, whatever the host presents (R9, R50, R118). Two clauses are
the model's and not these rules': that a command never stays stuck in mid-command ASSUMES THAT THE SINK EVENTUALLY ACCEPTS
EVERY BYTE (the fairness assumption of R150; log entry 10, DEDUCED, unsafe for termination), and that with nothing presented
the step is to wait is log entry 6 (DESIGN CHOICE). -/
def Obligations.EveryStepCompletes : Prop :=
  ∀ s : State, ∃ t, step s = .next t

/-- R136: the reset pin clears `OPEN`, `ZS`, `FLT`, `FCODE` and leaves `C`, `A`, `B` without a value; it emits no byte and does
not touch `out`; and `State.reset` is such a state. That the command index `pos` survives the reset pin, which the whole-state
equation also says, is the model's choice and not R136's: log entry 4 (DESIGN CHOICE). -/
def Obligations.ResetPinResult : Prop :=
  (∀ (s : State) (rest : List HostInput), s.input = .reset :: rest →
    step s = .next { s with
      c := none, a := none, b := none, isOpen := false, zs := false, flt := false, fcode := 0, input := rest }) ∧
  State.reset.c = none ∧ State.reset.a = none ∧ State.reset.b = none ∧ State.reset.isOpen = false ∧
  State.reset.zs = false ∧ State.reset.flt = false ∧ State.reset.fcode = 0

/-- Each step takes exactly one thing off the host's list, and the command index advances by exactly one per command,
whether it completes, faults or is discarded (R19, R30). The clause for an empty list (the engine waits) is the model's
choice, log entry 6; that the index survives a reset is log entry 4. -/
def Obligations.StepTakesOneInput : Prop :=
  ∀ s t : State, step s = .next t →
    match s.input with
    | [] => t = s
    | .reset :: rest => t.input = rest ∧ t.pos = s.pos
    | .command _ :: rest => t.input = rest ∧ t.pos = s.pos + 1

/-- R21: the status port carries `FLT` in bit 0, `FCODE` in bits 4:1, `OPEN` in bit 5, `ZS` in bit 6, all 0 after reset;
`C`, `A`, `B` are not on it. -/
def Obligations.StatusPortFields : Prop :=
  (∀ s : State,
    (statusPort s).getLsbD 0 = s.flt ∧ (statusPort s).extractLsb 4 1 = s.fcode ∧
    (statusPort s).getLsbD 5 = s.isOpen ∧ (statusPort s).getLsbD 6 = s.zs) ∧
  statusPort State.reset = 0 ∧
  ∀ (s : State) (c : Option Word) (a b : Option Half), statusPort { s with c := c, a := a, b := b } = statusPort s

/-! ### Faults -/

/-- R116: the order of checks. With `FLT = 1` the word is discarded; else the first failing check, illegal word, `OPEN`, `ZS`,
operand range, is the one fault recorded; if none fails the word is a command and it executes without a fault. -/
def Obligations.FirstFailingCheckIsReported : Prop :=
  ∀ (s : State) (w : CmdWord) (rest : List HostInput), s.input = .command w :: rest →
    (s.flt = true → step s = .next { s with input := rest, pos := s.pos + 1 }) ∧
    (∀ k, s.flt = false → firstFailingCheck w s.isOpen s.zs = some k →
      step s = .next { s with input := rest, pos := s.pos + 1, flt := true, fcode := k.code }) ∧
    (s.flt = false → firstFailingCheck w s.isOpen s.zs = none →
      ∃ i t, decode w = .ok i ∧ step s = .next t ∧ t.flt = false ∧ t.fcode = s.fcode ∧ s.out.length < t.out.length)

/-- R117: a fault is precise. Whatever the host presents, if a step from `FLT = 0` ends with `FLT = 1` then it was a command,
and the step wrote `FLT` and a code 1 to 8 and nothing else: no byte, `C`, `A`, `B`, `OPEN`, `ZS` as they were. -/
def Obligations.FaultEntryIsPrecise : Prop :=
  ∀ s t : State, s.flt = false → step s = .next t → t.flt = true →
    ∃ w rest k, s.input = .command w :: rest ∧ 1 ≤ FaultCode.code k ∧ FaultCode.code k ≤ 8 ∧
      t = { s with input := rest, pos := s.pos + 1, flt := true, fcode := k.code }

/-- R118: the fault lock. While `FLT = 1` any number of words, legal or not, are accepted and discarded: no byte, no register
write, `FCODE` keeps the code of the first fault; and a faulted state is never a completed run. -/
def Obligations.FaultLockDiscards : Prop :=
  (∀ (ws : List CmdWord) (s : State) (rest : List HostInput),
    s.flt = true → s.input = ws.map .command ++ rest →
    runSteps ws.length s = .next { s with input := rest, pos := s.pos + ws.length }) ∧
  ∀ s : State, s.flt = true → ¬ Completed s

/-- No fault depends on `C`, `A`, `B`, on the output, or on when the word is presented: the same word in two states with the
same flags records the same fault or none (R114). -/
def Obligations.FaultsIgnoreRegisters : Prop :=
  ∀ (s s' t t' : State) (w : CmdWord) (rest rest' : List HostInput),
    s.input = .command w :: rest → s'.input = .command w :: rest' →
    s.isOpen = s'.isOpen → s.zs = s'.zs → s.flt = s'.flt → s.fcode = s'.fcode →
    step s = .next t → step s' = .next t' →
    t.flt = t'.flt ∧ t.fcode = t'.fcode ∧ t.isOpen = t'.isOpen ∧ t.zs = t'.zs

/-- Only the reset pin clears a fault (R15, R127). -/
def Obligations.OnlyResetClearsFault : Prop :=
  ∀ s t : State, step s = .next t → s.flt = true → t.flt = false → ∃ rest, s.input = .reset :: rest

/-! ### Frames -/

/-- What each of the nine commands leaves unchanged, from every state (R11 to R15, R36, R70 to R93): the host's list and the
index always; `C` for PUT and CHE; `A` and `B` but for ZHDR, PUTCA and FILT; `OPEN` but for CHB and CHE; `ZS` but for ZHDR and
ZTRL; every byte already in `out`; and where a fault is recorded, everything but `FLT` and `FCODE`. -/
def Obligations.CommandFrame : Prop :=
  ∀ (i : Instr) (s t : State), exec i s = .next t →
    t.input = s.input ∧ t.pos = s.pos ∧
    (match i with | .put _ | .che => t.c = s.c | _ => True) ∧
    (match i with | .zhdr | .putca _ | .filt => True | _ => t.a = s.a ∧ t.b = s.b) ∧
    (match i with | .chb _ _ | .che => True | _ => t.isOpen = s.isOpen) ∧
    (match i with | .zhdr | .ztrl => True | _ => t.zs = s.zs) ∧
    (∃ bs, t.out = s.out ++ bs) ∧
    ((t.flt = s.flt ∧ t.fcode = s.fcode) ∨
      (s.flt = false ∧ ∃ k : FaultCode, t = { s with flt := true, fcode := k.code }))

/-- Bytes per command (R36): PUT, PUTC, PUTCA, FILT 1; ZHDR 2; CHE, ZTRL 4; BLKHDR 5; CHB 8; a faulting or discarded
command 0. -/
def Obligations.BytesPerCommand : Prop :=
  ∀ (i : Instr) (s t : State), exec i s = .next t →
    t.out.length = s.out.length + (if t.flt = true then 0 else byteCount i)

/-- `out` is append-only through every kind of step, the reset pin included, and empty at the start (R31, R136, R137); a step
appends at most 8 bytes, the most any command emits (R36). -/
def Obligations.OutputIsAppendOnly : Prop :=
  State.reset.out = [] ∧
  ∀ s t : State, step s = .next t → ∃ bs : List Byte, t.out = s.out ++ bs ∧ bs.length ≤ 8 ∧
    (∀ rest, s.input = .reset :: rest → bs = [])

/-- The bytes a command appends do not depend on `C`, `A`, `B` except for CHE and ZTRL (R74). -/
def Obligations.EmittedBytesIgnoreRegisters : Prop :=
  ∀ (i : Instr) (s s' t t' : State), i ≠ .che → i ≠ .ztrl →
    s.isOpen = s'.isOpen → s.zs = s'.zs → s.flt = s'.flt →
    exec i s = .next t → exec i s' = .next t' →
    ∃ bs, t.out = s.out ++ bs ∧ t'.out = s'.out ++ bs

/-! ### Invariants -/

/-- Every step keeps the invariants of R23 (i) to (iv), from every state that has them. -/
def Obligations.StepKeepsInvariants : Prop :=
  ∀ s t : State, EngineInv s → step s = .next t → EngineInv t

/-- The state after reset has the invariants (R23, R25). -/
def Obligations.ResetHasInvariants : Prop :=
  EngineInv State.reset

/-- R23 (v): in a state that has the invariants no command reads a register that holds no value. The command index feeds
nothing but the free values such a read would give (log entry 2), so: the outcome does not depend on it. -/
def Obligations.NoReadOfMissingValue : Prop :=
  ∀ (i : Instr) (s t : State) (n : Nat), EngineInv s → exec i s = .next t →
    exec i { s with pos := n } = .next { t with pos := n }

/-- R26: the value of `C` while no chunk is open and the values of `A`, `B` while no stream is open are unobservable: two states
that differ only there stay so, and append the same bytes and record the same flags, through every step. -/
def Obligations.StaleValuesUnobservable : Prop :=
  ∀ s s' t : State, SameObservable s s' → step s = .next t →
    ∃ t', step s' = .next t' ∧ SameObservable t t'

/-! ### Whole chunks, blocks and streams -/

/-- R80 and R75: if CHB, a list of body commands with no CHE among them, and CHE run from a state with `FLT = 0` and end with
`FLT = 0`, the bytes appended are the chunk layout of R53 over the bytes `body` that the body commands appended. -/
def Obligations.WholeChunkResult : Prop :=
  ∀ (tag len : Word) (cmds : List Instr) (s t : State),
    s.flt = false → .che ∉ cmds →
    runCommands ([.chb tag len] ++ cmds ++ [.che]) s = .next t → t.flt = false →
    ∃ body s1 s2, exec (.chb tag len) s = .next s1 ∧ runCommands cmds s1 = .next s2 ∧
      s2.out = s1.out ++ body ∧
      t.out = s.out ++
        (be32 len ++ be32 tag ++ body ++ be32 (~~~(crcBytes 0xFFFFFFFF (be32 tag ++ body)))) ∧
      t.isOpen = false

/-- R75: for a run from ZHDR to ZTRL with `FLT = 0` throughout and no other ZTRL or ZHDR between, the last four bytes are
`BE32(adler32(ps))`, where `ps` is the list of bytes sent by FILT and PUTCA. -/
def Obligations.TrailerIsAdler32 : Prop :=
  ∀ (cmds : List Instr) (s t : State),
    s.flt = false → .ztrl ∉ cmds →
    runCommands ([.zhdr] ++ cmds ++ [.ztrl]) s = .next t → t.flt = false →
    ∃ bs, t.out = s.out ++ bs ++ be32 (adlerWord (adlerBytes (1, 0) (cmds.flatMap adlerInput)))

/-- R88: BLKHDR, FILT and the PUTCA of one row append a stored block whose literal bytes are the filter byte and the row, fold
all of it into `C` and the literal bytes into `(A, B)`. -/
def Obligations.WholeBlockResult : Prop :=
  ∀ (final : BitVec 1) (l : Half) (row : List Byte) (s : State) (c : Word) (a b : Half),
    s.flt = false → s.isOpen = true → s.zs = true →
    s.c = some c → s.a = some a → s.b = some b → a.toNat ≤ 65520 → b.toNat ≤ 65520 →
    runCommands ([.blkhdr final (l.setWidth 32), .filt] ++ row.map .putca) s =
      .next { s with
        out := s.out ++ ([final.setWidth 8] ++ le16 l ++ le16 (~~~l) ++ [0x00] ++ row)
        c := some (crcBytes c ([final.setWidth 8] ++ le16 l ++ le16 (~~~l) ++ [0x00] ++ row))
        a := some (adlerBytes (a, b) ([0x00] ++ row)).1
        b := some (adlerBytes (a, b) ([0x00] ++ row)).2 }

/-- R94: ZHDR, the blocks of any list of rows (final flag on the last only), ZTRL append the zlib stream of R55: header,
blocks, the Adler-32 over filter byte and row bytes per row without reseeding; the whole of it enters `C`; and with rows of
`pitch - 1` bytes its length is `2 + h*(5 + pitch) + 4`. -/
def Obligations.WholeStreamResult : Prop :=
  ∀ (l : Half) (rows : List (List Byte)) (s : State) (c : Word),
    s.flt = false → s.isOpen = true → s.zs = false → s.c = some c →
    (∃ t, runCommands (pseudoStream (l.setWidth 32) rows) s = .next t ∧
      t.out = s.out ++ ([0x78, 0x01] ++ rowBlocks l rows ++ be32 (adler32 (rows.flatMap scanline))) ∧
      t.c = some (crcBytes c ([0x78, 0x01] ++ rowBlocks l rows ++ be32 (adler32 (rows.flatMap scanline)))) ∧
      t.isOpen = true ∧ t.zs = false ∧ t.flt = false) ∧
    ((∀ row ∈ rows, row.length + 1 = l.toNat) →
      ([0x78, 0x01] ++ rowBlocks l rows ++ be32 (adler32 (rows.flatMap scanline))).length =
        2 + rows.length * (5 + l.toNat) + 4)

/-! ### The host's bounds -/

/-- R100: the bound `pitch <= 0xFFFF` in widths is 21844 for RGB and 16383 for RGBA, the largest pitch within it is 65533, and no
image has the pitch 65535 (spec/90_conflicts.md C2, C4). -/
def Obligations.RowBoundInWidths : Prop :=
  ∀ img : Image,
    (rowFits img = true ↔ img.width ≤ if img.hasAlpha then 16383 else 21844) ∧
    (rowFits img = true → pitch img ≤ 65533) ∧ pitch img ≠ 65535
end

