-- ==== Sys2Proof/Laws/State.lean ====
section
/-!
SUPPORT. One lemma per field per state update, each true by unfolding that update, so that no later proof unfolds one.
-/

namespace Sys2Proof.Machine

@[simp] theorem setOpen_c (v : Bool) (s : State) : (setOpen v s).c = s.c := rfl
@[simp] theorem setOpen_a (v : Bool) (s : State) : (setOpen v s).a = s.a := rfl
@[simp] theorem setOpen_b (v : Bool) (s : State) : (setOpen v s).b = s.b := rfl
@[simp] theorem setOpen_isOpen (v : Bool) (s : State) : (setOpen v s).isOpen = v := rfl
@[simp] theorem setOpen_zs (v : Bool) (s : State) : (setOpen v s).zs = s.zs := rfl
@[simp] theorem setOpen_flt (v : Bool) (s : State) : (setOpen v s).flt = s.flt := rfl
@[simp] theorem setOpen_fcode (v : Bool) (s : State) : (setOpen v s).fcode = s.fcode := rfl
@[simp] theorem setOpen_out (v : Bool) (s : State) : (setOpen v s).out = s.out := rfl
@[simp] theorem setOpen_input (v : Bool) (s : State) : (setOpen v s).input = s.input := rfl
@[simp] theorem setOpen_pos (v : Bool) (s : State) : (setOpen v s).pos = s.pos := rfl

@[simp] theorem setZs_c (v : Bool) (s : State) : (setZs v s).c = s.c := rfl
@[simp] theorem setZs_a (v : Bool) (s : State) : (setZs v s).a = s.a := rfl
@[simp] theorem setZs_b (v : Bool) (s : State) : (setZs v s).b = s.b := rfl
@[simp] theorem setZs_isOpen (v : Bool) (s : State) : (setZs v s).isOpen = s.isOpen := rfl
@[simp] theorem setZs_zs (v : Bool) (s : State) : (setZs v s).zs = v := rfl
@[simp] theorem setZs_flt (v : Bool) (s : State) : (setZs v s).flt = s.flt := rfl
@[simp] theorem setZs_fcode (v : Bool) (s : State) : (setZs v s).fcode = s.fcode := rfl
@[simp] theorem setZs_out (v : Bool) (s : State) : (setZs v s).out = s.out := rfl
@[simp] theorem setZs_input (v : Bool) (s : State) : (setZs v s).input = s.input := rfl
@[simp] theorem setZs_pos (v : Bool) (s : State) : (setZs v s).pos = s.pos := rfl

@[simp] theorem writeC_c (v : Word) (s : State) : (writeC v s).c = some v := rfl
@[simp] theorem writeC_a (v : Word) (s : State) : (writeC v s).a = s.a := rfl
@[simp] theorem writeC_b (v : Word) (s : State) : (writeC v s).b = s.b := rfl
@[simp] theorem writeC_isOpen (v : Word) (s : State) : (writeC v s).isOpen = s.isOpen := rfl
@[simp] theorem writeC_zs (v : Word) (s : State) : (writeC v s).zs = s.zs := rfl
@[simp] theorem writeC_flt (v : Word) (s : State) : (writeC v s).flt = s.flt := rfl
@[simp] theorem writeC_fcode (v : Word) (s : State) : (writeC v s).fcode = s.fcode := rfl
@[simp] theorem writeC_out (v : Word) (s : State) : (writeC v s).out = s.out := rfl
@[simp] theorem writeC_input (v : Word) (s : State) : (writeC v s).input = s.input := rfl
@[simp] theorem writeC_pos (v : Word) (s : State) : (writeC v s).pos = s.pos := rfl

@[simp] theorem writeAB_c (ab : Half × Half) (s : State) : (writeAB ab s).c = s.c := rfl
@[simp] theorem writeAB_a (ab : Half × Half) (s : State) : (writeAB ab s).a = some ab.1 := rfl
@[simp] theorem writeAB_b (ab : Half × Half) (s : State) : (writeAB ab s).b = some ab.2 := rfl
@[simp] theorem writeAB_isOpen (ab : Half × Half) (s : State) : (writeAB ab s).isOpen = s.isOpen := rfl
@[simp] theorem writeAB_zs (ab : Half × Half) (s : State) : (writeAB ab s).zs = s.zs := rfl
@[simp] theorem writeAB_flt (ab : Half × Half) (s : State) : (writeAB ab s).flt = s.flt := rfl
@[simp] theorem writeAB_fcode (ab : Half × Half) (s : State) : (writeAB ab s).fcode = s.fcode := rfl
@[simp] theorem writeAB_out (ab : Half × Half) (s : State) : (writeAB ab s).out = s.out := rfl
@[simp] theorem writeAB_input (ab : Half × Half) (s : State) : (writeAB ab s).input = s.input := rfl
@[simp] theorem writeAB_pos (ab : Half × Half) (s : State) : (writeAB ab s).pos = s.pos := rfl

@[simp] theorem emit_c (bs : List Byte) (s : State) : (emit bs s).c = s.c := rfl
@[simp] theorem emit_a (bs : List Byte) (s : State) : (emit bs s).a = s.a := rfl
@[simp] theorem emit_b (bs : List Byte) (s : State) : (emit bs s).b = s.b := rfl
@[simp] theorem emit_isOpen (bs : List Byte) (s : State) : (emit bs s).isOpen = s.isOpen := rfl
@[simp] theorem emit_zs (bs : List Byte) (s : State) : (emit bs s).zs = s.zs := rfl
@[simp] theorem emit_flt (bs : List Byte) (s : State) : (emit bs s).flt = s.flt := rfl
@[simp] theorem emit_fcode (bs : List Byte) (s : State) : (emit bs s).fcode = s.fcode := rfl
@[simp] theorem emit_out (bs : List Byte) (s : State) : (emit bs s).out = s.out ++ bs := rfl
@[simp] theorem emit_input (bs : List Byte) (s : State) : (emit bs s).input = s.input := rfl
@[simp] theorem emit_pos (bs : List Byte) (s : State) : (emit bs s).pos = s.pos := rfl

@[simp] theorem raiseFault_c (k : FaultCode) (s : State) : (raiseFault k s).c = s.c := rfl
@[simp] theorem raiseFault_a (k : FaultCode) (s : State) : (raiseFault k s).a = s.a := rfl
@[simp] theorem raiseFault_b (k : FaultCode) (s : State) : (raiseFault k s).b = s.b := rfl
@[simp] theorem raiseFault_isOpen (k : FaultCode) (s : State) : (raiseFault k s).isOpen = s.isOpen := rfl
@[simp] theorem raiseFault_zs (k : FaultCode) (s : State) : (raiseFault k s).zs = s.zs := rfl
@[simp] theorem raiseFault_flt (k : FaultCode) (s : State) : (raiseFault k s).flt = true := rfl
@[simp] theorem raiseFault_fcode (k : FaultCode) (s : State) : (raiseFault k s).fcode = k.code := rfl
@[simp] theorem raiseFault_out (k : FaultCode) (s : State) : (raiseFault k s).out = s.out := rfl
@[simp] theorem raiseFault_input (k : FaultCode) (s : State) : (raiseFault k s).input = s.input := rfl
@[simp] theorem raiseFault_pos (k : FaultCode) (s : State) : (raiseFault k s).pos = s.pos := rfl

@[simp] theorem applyReset_c (s : State) : (applyReset s).c = none := rfl
@[simp] theorem applyReset_a (s : State) : (applyReset s).a = none := rfl
@[simp] theorem applyReset_b (s : State) : (applyReset s).b = none := rfl
@[simp] theorem applyReset_isOpen (s : State) : (applyReset s).isOpen = false := rfl
@[simp] theorem applyReset_zs (s : State) : (applyReset s).zs = false := rfl
@[simp] theorem applyReset_flt (s : State) : (applyReset s).flt = false := rfl
@[simp] theorem applyReset_fcode (s : State) : (applyReset s).fcode = 0 := rfl
@[simp] theorem applyReset_out (s : State) : (applyReset s).out = s.out := rfl
@[simp] theorem applyReset_input (s : State) : (applyReset s).input = s.input := rfl
@[simp] theorem applyReset_pos (s : State) : (applyReset s).pos = s.pos := rfl

@[simp] theorem takeInput_c (rest : List HostInput) (s : State) : (takeInput rest s).c = s.c := rfl
@[simp] theorem takeInput_a (rest : List HostInput) (s : State) : (takeInput rest s).a = s.a := rfl
@[simp] theorem takeInput_b (rest : List HostInput) (s : State) : (takeInput rest s).b = s.b := rfl
@[simp] theorem takeInput_isOpen (rest : List HostInput) (s : State) : (takeInput rest s).isOpen = s.isOpen := rfl
@[simp] theorem takeInput_zs (rest : List HostInput) (s : State) : (takeInput rest s).zs = s.zs := rfl
@[simp] theorem takeInput_flt (rest : List HostInput) (s : State) : (takeInput rest s).flt = s.flt := rfl
@[simp] theorem takeInput_fcode (rest : List HostInput) (s : State) : (takeInput rest s).fcode = s.fcode := rfl
@[simp] theorem takeInput_out (rest : List HostInput) (s : State) : (takeInput rest s).out = s.out := rfl
@[simp] theorem takeInput_input (rest : List HostInput) (s : State) : (takeInput rest s).input = rest := rfl
@[simp] theorem takeInput_pos (rest : List HostInput) (s : State) : (takeInput rest s).pos = s.pos := rfl

@[simp] theorem acceptCommand_c (rest : List HostInput) (s : State) : (acceptCommand rest s).c = s.c := rfl
@[simp] theorem acceptCommand_a (rest : List HostInput) (s : State) : (acceptCommand rest s).a = s.a := rfl
@[simp] theorem acceptCommand_b (rest : List HostInput) (s : State) : (acceptCommand rest s).b = s.b := rfl
@[simp] theorem acceptCommand_isOpen (rest : List HostInput) (s : State) : (acceptCommand rest s).isOpen = s.isOpen := rfl
@[simp] theorem acceptCommand_zs (rest : List HostInput) (s : State) : (acceptCommand rest s).zs = s.zs := rfl
@[simp] theorem acceptCommand_flt (rest : List HostInput) (s : State) : (acceptCommand rest s).flt = s.flt := rfl
@[simp] theorem acceptCommand_fcode (rest : List HostInput) (s : State) : (acceptCommand rest s).fcode = s.fcode := rfl
@[simp] theorem acceptCommand_out (rest : List HostInput) (s : State) : (acceptCommand rest s).out = s.out := rfl
@[simp] theorem acceptCommand_input (rest : List HostInput) (s : State) : (acceptCommand rest s).input = rest := rfl
@[simp] theorem acceptCommand_pos (rest : List HostInput) (s : State) : (acceptCommand rest s).pos = s.pos + 1 := rfl

@[simp] theorem presentCommand_c (w : CmdWord) (s : State) : (presentCommand w s).c = s.c := rfl
@[simp] theorem presentCommand_a (w : CmdWord) (s : State) : (presentCommand w s).a = s.a := rfl
@[simp] theorem presentCommand_b (w : CmdWord) (s : State) : (presentCommand w s).b = s.b := rfl
@[simp] theorem presentCommand_isOpen (w : CmdWord) (s : State) : (presentCommand w s).isOpen = s.isOpen := rfl
@[simp] theorem presentCommand_zs (w : CmdWord) (s : State) : (presentCommand w s).zs = s.zs := rfl
@[simp] theorem presentCommand_flt (w : CmdWord) (s : State) : (presentCommand w s).flt = s.flt := rfl
@[simp] theorem presentCommand_fcode (w : CmdWord) (s : State) : (presentCommand w s).fcode = s.fcode := rfl
@[simp] theorem presentCommand_out (w : CmdWord) (s : State) : (presentCommand w s).out = s.out := rfl
@[simp] theorem presentCommand_input (w : CmdWord) (s : State) : (presentCommand w s).input = .command w :: s.input := rfl
@[simp] theorem presentCommand_pos (w : CmdWord) (s : State) : (presentCommand w s).pos = s.pos := rfl

end Sys2Proof.Machine
end

