-- ==== Sys2Proof/Laws/Ops.lean ====
section
/-!
SUPPORT. For each shared operation, one lemma that says everything it can do; cite these instead of unfolding the operation.
Where a proof is `(rfl)` in parentheses, the lemma is kept from being used as a definitional unfolding: simp then rewrites
with it one step at a time, and no checker is asked to compare whole emission folds by computing them.
-/

namespace Sys2Proof.Machine

/-- Reading `C` when it holds a value gives that value. -/
theorem readC_of_some {s : State} {v : Word} (h : s.c = some v) : readC s = v := by simp [readC, h]

/-- Reading `A` when it holds a value gives that value. -/
theorem readA_of_some {s : State} {v : Half} (h : s.a = some v) : readA s = v := by simp [readA, h]

/-- Reading `B` when it holds a value gives that value. -/
theorem readB_of_some {s : State} {v : Half} (h : s.b = some v) : readB s = v := by simp [readB, h]

@[simp] theorem readC_writeC (v : Word) (s : State) : readC (writeC v s) = v := (rfl)
@[simp] theorem readA_writeAB (ab : Half × Half) (s : State) : readA (writeAB ab s) = ab.1 := (rfl)
@[simp] theorem readB_writeAB (ab : Half × Half) (s : State) : readB (writeAB ab s) = ab.2 := (rfl)
@[simp] theorem readC_emit (bs : List Byte) (s : State) : readC (emit bs s) = readC s := (rfl)
@[simp] theorem readC_emitCrcByte (s : State) (u : Byte) : readC (emitCrcByte s u) = crcByte (readC s) u := (rfl)
@[simp] theorem readC_emitCrcAdlerByte (s : State) (u : Byte) :
    readC (emitCrcAdlerByte s u) = crcByte (readC s) u := (rfl)
@[simp] theorem readA_emitCrcAdlerByte (s : State) (u : Byte) :
    readA (emitCrcAdlerByte s u) = (adlerByte (readA s, readB s) u).1 := (rfl)
@[simp] theorem readB_emitCrcAdlerByte (s : State) (u : Byte) :
    readB (emitCrcAdlerByte s u) = (adlerByte (readA s, readB s) u).2 := (rfl)
@[simp] theorem readA_emitCrcByte (s : State) (u : Byte) : readA (emitCrcByte s u) = readA s := (rfl)
@[simp] theorem readB_emitCrcByte (s : State) (u : Byte) : readB (emitCrcByte s u) = readB s := (rfl)

/-- The fault lock either leaves the state as it is or lets the rest run. -/
theorem unlessLocked_eq (s : State) (r : Result) :
    (s.flt = true ∧ unlessLocked s r = .next s) ∨ (s.flt = false ∧ unlessLocked s r = r) := by
  cases h : s.flt <;> simp [unlessLocked, h]

@[simp] theorem unlessLocked_of_flt {s : State} (h : s.flt = true) (r : Result) : unlessLocked s r = .next s := by
  simp [unlessLocked, h]

@[simp] theorem unlessLocked_of_not_flt {s : State} (h : s.flt = false) (r : Result) : unlessLocked s r = r := by
  simp [unlessLocked, h]

/-- A precondition either lets the rest run or ends the command with its fault. -/
theorem require_eq (p : Bool) (k : FaultCode) (s : State) (r : Result) :
    (p = true ∧ require p k s r = r) ∨ (p = false ∧ require p k s r = .next (raiseFault k s)) := by
  cases p <;> simp [require]

@[simp] theorem require_true (k : FaultCode) (s : State) (r : Result) : require true k s r = r := (rfl)

@[simp] theorem require_false (k : FaultCode) (s : State) (r : Result) :
    require false k s r = .next (raiseFault k s) := (rfl)

@[simp] theorem emitCrc_nil (s : State) : emitCrc [] s = s := (rfl)

@[simp] theorem emitCrc_cons (u : Byte) (bs : List Byte) (s : State) :
    emitCrc (u :: bs) s = emitCrc bs (emitCrcByte s u) := (rfl)

@[simp] theorem emitCrcAdler_nil (s : State) : emitCrcAdler [] s = s := (rfl)

@[simp] theorem emitCrcAdler_cons (u : Byte) (bs : List Byte) (s : State) :
    emitCrcAdler (u :: bs) s = emitCrcAdler bs (emitCrcAdlerByte s u) := (rfl)

@[simp] theorem crcBytes_cons (c : Word) (u : Byte) (bs : List Byte) :
    crcBytes c (u :: bs) = crcBytes (crcByte c u) bs := (rfl)

@[simp] theorem adlerBytes_cons (ab : Half × Half) (u : Byte) (bs : List Byte) :
    adlerBytes ab (u :: bs) = adlerBytes (adlerByte ab u) bs := (rfl)

/-- The CRC path, whole: a non-empty list of bytes is appended and folded into `C`, and nothing else changes. -/
theorem emitCrc_spec (u : Byte) (bs : List Byte) (s : State) :
    emitCrc (u :: bs) s =
      { s with out := s.out ++ u :: bs, c := some (crcBytes (readC s) (u :: bs)) } := by
  induction bs generalizing u s with
  | nil => rfl
  | cons v bs ih => rw [emitCrc_cons, ih]; simp [emitCrcByte, writeC, emit, readC]

/-- The CRC-and-Adler path, whole: the bytes are appended and folded into `C` and into `(A, B)`; nothing else changes. -/
theorem emitCrcAdler_spec (u : Byte) (bs : List Byte) (s : State) :
    emitCrcAdler (u :: bs) s =
      { s with
        out := s.out ++ u :: bs
        c := some (crcBytes (readC s) (u :: bs))
        a := some (adlerBytes (readA s, readB s) (u :: bs)).1
        b := some (adlerBytes (readA s, readB s) (u :: bs)).2 } := by
  induction bs generalizing u s with
  | nil => rfl
  | cons v bs ih =>
    rw [emitCrcAdler_cons, ih]; simp [emitCrcAdlerByte, emitCrcByte, writeC, writeAB, emit, readC, readA, readB]

/-- `C` after the CRC path, from a state whose `C` holds a value, the empty list included. -/
theorem emitCrc_c {s : State} {v : Word} (h : s.c = some v) (bs : List Byte) :
    (emitCrc bs s).c = some (crcBytes v bs) := by
  cases bs with
  | nil => simpa [crcBytes] using h
  | cons u bs => rw [emitCrc_spec, readC_of_some h]

/-- What the CRC path appends. -/
theorem emitCrc_out (bs : List Byte) (s : State) : (emitCrc bs s).out = s.out ++ bs := by
  cases bs with
  | nil => simp
  | cons u bs => rw [emitCrc_spec]

/-- An illegal word either is discarded by the lock or records fault 1. -/
theorem illegalWord_eq (s : State) :
    (s.flt = true ∧ illegalWord s = .next s) ∨
    (s.flt = false ∧ illegalWord s = .next (raiseFault .illegalCommand s)) :=
  unlessLocked_eq s _

/-- Everything a command can do: be discarded by the lock, record a fault (no byte, no other register), or run. The last
case is each command's own; its spec lemma says which state it gives. -/
theorem exec_locked (i : Instr) {s : State} (h : s.flt = true) : exec i s = .next s := by
  cases i <;>
    simp [exec, execPut, execPutc, execPutca, execChb, execChe, execZhdr, execBlkhdr, execFilt, execZtrl, h]

end Sys2Proof.Machine
end

