-- ==== Sys2Proof/Laws/Exec.lean ====
section
/-!
SUPPORT. What a command and a step can do, said once: `exec_cases` and `step_cases` are the inversion lemmas the proofs cite
instead of unfolding the meanings or the step function.
-/

namespace Sys2Proof.Machine

/-- The first failing precondition of a command, from the two flags and BLKHDR's length (R116, lines 3 to 5). -/
def commandCheck (i : Instr) (isOpen zs : Bool) : Option FaultCode :=
  match i with
  | .put _ => if isOpen then some .rawInChunk else none
  | .putc _ => if isOpen then none else some .chunkNotOpen
  | .putca _ | .filt | .ztrl =>
    if isOpen then (if zs then none else some .streamNotOpen) else some .chunkNotOpen
  | .chb _ _ => if isOpen then some .chunkAlreadyOpen else none
  | .che => if isOpen then (if zs then some .streamOpenAtChunkEnd else none) else some .chunkNotOpen
  | .zhdr => if isOpen then (if zs then some .streamAlreadyOpen else none) else some .chunkNotOpen
  | .blkhdr _ len =>
    if isOpen then (if zs then (if lenFits len then none else some .lenOverflow) else some .streamNotOpen)
    else some .chunkNotOpen

/-- The state a command gives when every check passes (R116, line 6). -/
def commandEffect (i : Instr) (s : State) : State :=
  match i with
  | .put u => emit [u] s
  | .putc u => emitCrc [u] s
  | .putca u => emitCrcAdler [u] s
  | .chb tag len => setOpen true (emitCrc (be32 tag) (writeC crcSeed (emit (be32 len) s)))
  | .che => setOpen false (emit (be32 (~~~(readC s))) s)
  | .zhdr => setZs true (writeAB (adlerSeedA, adlerSeedB) (emitCrc zlibHeader s))
  | .blkhdr final len => emitCrc (blockFraming final (blockLen len)) s
  | .filt => emitCrcAdler [filterByte] s
  | .ztrl => setZs false (emitCrc (be32 (adlerWord (readA s, readB s))) s)

/-- Everything a command can do: be discarded by the lock, record the fault of its first failing check, or run whole. -/
theorem exec_cases (i : Instr) (s : State) :
    exec i s =
      if s.flt then .next s
      else match commandCheck i s.isOpen s.zs with
        | some k => .next (raiseFault k s)
        | none => .next (commandEffect i s) := by
  cases hf : s.flt <;> cases ho : s.isOpen <;> cases hz : s.zs <;> cases i <;>
    simp [exec, execPut, execPutc, execPutca, execChb, execChe, execZhdr, execBlkhdr, execFilt, execZtrl,
      hf, ho, hz, commandCheck, commandEffect]
  all_goals (rename_i len; cases h : lenFits len <;> simp)

/-- Everything a step can do: wait, reset, run the decoded command, or treat the word as illegal. -/
theorem step_cases {s t : State} (h : step s = .next t) :
    (s.input = [] ∧ t = s) ∨
    (∃ rest, s.input = .reset :: rest ∧ t = applyReset (takeInput rest s)) ∨
    (∃ w rest i, s.input = .command w :: rest ∧ decode w = .ok i ∧ exec i (acceptCommand rest s) = .next t) ∨
    (∃ w rest e, s.input = .command w :: rest ∧ decode w = .error e ∧
      illegalWord (acceptCommand rest s) = .next t) := by
  unfold step at h
  split at h
  · next hi => exact .inl ⟨hi, by cases h; rfl⟩
  · next rest hi => exact .inr (.inl ⟨rest, hi, by cases h; rfl⟩)
  · next w rest hi =>
    split at h
    · next i hd => exact .inr (.inr (.inl ⟨w, rest, i, hi, hd, h⟩))
    · next e hd => exact .inr (.inr (.inr ⟨w, rest, e, hi, hd, h⟩))

/-- Both sums of `adler_byte` are below the modulus, whatever it is applied to. -/
theorem adlerByte_lt (ab : Half × Half) (u : Byte) :
    (adlerByte ab u).1.toNat < adlerModulus ∧ (adlerByte ab u).2.toNat < adlerModulus := by
  simp only [adlerByte, adlerAdd, adlerModulus, BitVec.toNat_ofNat]
  omega

/-- One byte through the CRC path, field by field. -/
@[simp] theorem emitCrcByte_fields (s : State) (u : Byte) :
    (emitCrcByte s u).c = some (crcByte (readC s) u) ∧ (emitCrcByte s u).a = s.a ∧ (emitCrcByte s u).b = s.b ∧
    (emitCrcByte s u).isOpen = s.isOpen ∧ (emitCrcByte s u).zs = s.zs ∧ (emitCrcByte s u).flt = s.flt ∧
    (emitCrcByte s u).fcode = s.fcode ∧ (emitCrcByte s u).out = s.out ++ [u] ∧
    (emitCrcByte s u).input = s.input ∧ (emitCrcByte s u).pos = s.pos := by
  simp [emitCrcByte]

/-- One byte through both checksums, field by field. -/
@[simp] theorem emitCrcAdlerByte_fields (s : State) (u : Byte) :
    (emitCrcAdlerByte s u).c = some (crcByte (readC s) u) ∧
    (emitCrcAdlerByte s u).a = some (adlerByte (readA s, readB s) u).1 ∧
    (emitCrcAdlerByte s u).b = some (adlerByte (readA s, readB s) u).2 ∧
    (emitCrcAdlerByte s u).isOpen = s.isOpen ∧ (emitCrcAdlerByte s u).zs = s.zs ∧
    (emitCrcAdlerByte s u).flt = s.flt ∧ (emitCrcAdlerByte s u).fcode = s.fcode ∧
    (emitCrcAdlerByte s u).out = s.out ++ [u] ∧
    (emitCrcAdlerByte s u).input = s.input ∧ (emitCrcAdlerByte s u).pos = s.pos := by
  simp [emitCrcAdlerByte]

end Sys2Proof.Machine
end

