-- ==== Sys2Proof/Laws/PerInstr.lean ====
section
/-!
SUPPORT. The family of statements "for all instructions", one lemma per constructor of Instr: the word the encoder gives is
legal in the sense of spec/30_encoding.md R50.
-/

namespace Sys2Proof.Laws.EncodedLegal

/-- The encoder's word of a command is legal (R50). -/
def Statement (i : Instr) : Prop := wordLegal (encode i) = true

theorem put (u : Byte) : Statement (.put u) := by
  unfold Statement; revert u; decide

theorem putc (u : Byte) : Statement (.putc u) := by
  unfold Statement; revert u; decide

theorem putca (u : Byte) : Statement (.putca u) := by
  unfold Statement; revert u; decide

/-- The opcode field of a packed word is the opcode. -/
theorem packWord_op (op : BitVec 8) (x y : Word) : (packWord op x y).extractLsb 71 64 = op := by
  unfold packWord
  grind

theorem chb (tag len : Word) : Statement (.chb tag len) := by
  unfold Statement wordLegal
  rw [encode, packWord_op]
  rfl

theorem che : Statement .che := by unfold Statement; decide

theorem zhdr : Statement .zhdr := by unfold Statement; decide

/-- Bits 63:33 of a packed word are bits 31:1 of its `x` field. -/
theorem packWord_high (op : BitVec 8) (x y : Word) : (packWord op x y).extractLsb 63 33 = x.extractLsb' 1 31 := by
  unfold packWord
  grind

theorem blkhdr (final : BitVec 1) (len : Word) : Statement (.blkhdr final len) := by
  unfold Statement wordLegal
  rw [encode, packWord_op]
  show ((packWord 0x21 (final.setWidth 32) len).extractLsb 63 33 == 0) = true
  rw [packWord_high]
  revert final
  decide

theorem filt : Statement .filt := by unfold Statement; decide

theorem ztrl : Statement .ztrl := by unfold Statement; decide

end Sys2Proof.Laws.EncodedLegal
end

