-- ==== Sys2Proof/Tests/Slice0.lean ====
section
/-!
SUPPORT. Small tests, and one witness for the hypotheses of each statement. Expected words, bytes and register values are
those of spec/95_test_vectors.md (section named at each test) or are written out by hand from the rule named.
-/

namespace Sys2Proof.Tests

open Sys2Proof Sys2Proof.Machine

/-- The next state, if the answer is one. -/
def next? (r : Result) : Option State :=
  match r with
  | .next s => some s
  | .fault _ => none
  | .refused _ => none

/-- What a next state shows: registers, flags, code, output. -/
structure View where
  c : Option Word
  a : Option Half
  b : Option Half
  isOpen : Bool
  zs : Bool
  flt : Bool
  fcode : BitVec 4
  out : List Byte
  deriving DecidableEq, Repr

/-- The view of an answer. -/
def view? (r : Result) : Option View :=
  (next? r).map fun s => ⟨s.c, s.a, s.b, s.isOpen, s.zs, s.flt, s.fcode, s.out⟩

/-- A state in the notation of spec/95_test_vectors.md, with nothing output yet and nothing presented. -/
def st (c : Option Word) (a b : Option Half) (isOpen zs flt : Bool) (fcode : BitVec 4) : State :=
  { State.reset with c := c, a := a, b := b, isOpen := isOpen, zs := zs, flt := flt, fcode := fcode }

/-- A chunk is open: the state after CHB "IHDR", 13 (section 2.3). -/
def inChunk : State := st (some 0x575E51F5) none none true false false 0

/-- A stream is open: the state after CHB "IDAT" and ZHDR (section 2.5). -/
def inStream : State := st (some 0x13E5812D) (some 0x0001) (some 0x0000) true true false 0

/-- A fault has been recorded (section 2.7, the last two priority vectors). -/
def locked : State := st (some 0x00000001) none none true false true 2

/-- The state with a word presented. -/
def fed (w : CmdWord) (s : State) : State := { s with input := [.command w] }

/-! ### The legality checks refuse ill-formed words (R50, section 2.8) -/

theorem test_legal_refuses_undefined_opcode : wordLegal 0x040000000000000000 = false := by decide
theorem test_legal_refuses_high_opcode_bit : wordLegal 0x810000000000000000 = false := by decide
theorem test_legal_refuses_reserved_bit_8_in_B : wordLegal 0x010000000000000100 = false := by decide
theorem test_legal_refuses_reserved_bit_32_in_B : wordLegal 0x010000000100000000 = false := by decide
theorem test_legal_refuses_reserved_bit_0_in_N : wordLegal 0x110000000000000001 = false := by decide
theorem test_legal_refuses_reserved_bit_63_in_N : wordLegal 0x208000000000000000 = false := by decide
theorem test_legal_refuses_reserved_bit_33_in_BH : wordLegal 0x210000000200000005 = false := by decide
theorem test_legal_accepts_every_CH_word : wordLegal 0x10FFFFFFFFFFFFFFFF = true := by decide

/-! ### Decoding: a word written out from the encoding of each command (R44 to R47, R52) -/

theorem test_decode_put : decode 0x0100000000000000FF = .ok (.put 0xFF) := by decide
theorem test_decode_putc : decode 0x0200000000000000AB = .ok (.putc 0xAB) := by decide
theorem test_decode_putca : decode 0x03000000000000007F = .ok (.putca 0x7F) := by decide
theorem test_decode_chb : decode 0x10494844520000000D = .ok (.chb 0x49484452 13) := by decide
theorem test_decode_che : decode 0x110000000000000000 = .ok .che := by decide
theorem test_decode_zhdr : decode 0x200000000000000000 = .ok .zhdr := by decide
theorem test_decode_blkhdr : decode 0x210000000100010000 = .ok (.blkhdr 1 0x10000) := by decide
theorem test_decode_filt : decode 0x220000000000000000 = .ok .filt := by decide
theorem test_decode_ztrl : decode 0x230000000000000000 = .ok .ztrl := by decide
theorem test_decode_rejects_bit_31_of_B : decode 0x020000000080000000 = .error (.reservedBitSet 0x02) := by decide
theorem test_decode_rejects_opcode_zero : decode 0 = .error (.undefinedOpcode 0) := by decide
theorem test_encode_blkhdr : encode (.blkhdr 1 5) = 0x210000000100000005 := by decide

/-- No two rows of the opcode table overlap: some bit both fix differs. -/
theorem test_opcode_table_rows_disjoint :
    opcodeTable.Pairwise (fun p q => p.pattern &&& (p.mask &&& q.mask) ≠ q.pattern &&& (p.mask &&& q.mask)) := by decide

theorem test_table_word_blkhdr : decodeTableWord 72 0x210000000000000000 = some (.blkhdr 0 0) := by decide

/-! ### The checksum functions (sections 2.1, 2.2) -/

theorem test_crc_nib : crcNib 0x12345678 0xB = 0x27FA75CB := by decide
theorem test_crc_byte_high_nibble : crcByte 0xFFFFFFFF 0x49 = 0x22FDE946 := by decide
theorem test_crc_byte_unequal_nibbles : crcByte 0xDEADBEEF 0x5A = 0xBBD5EABD := by decide
theorem test_crc32_check_value :
    crc32 [0x31, 0x32, 0x33, 0x34, 0x35, 0x36, 0x37, 0x38, 0x39] = 0xCBF43926 := by decide
theorem test_adler_both_wrap : adlerByte (65520, 65520) 255 = (254, 253) := by decide
theorem test_adler_exact_modulus : adlerByte (65266, 5) 255 = (0, 5) := by decide
theorem test_adler32_check_value :
    adler32 [0x57, 0x69, 0x6B, 0x69, 0x70, 0x65, 0x64, 0x69, 0x61] = 0x11E60398 := by decide

/-! ### One step of each command, and a fault of each (sections 2.3 to 2.7) -/

theorem test_put_after_reset :
    view? (step (fed 0x010000000000000089 State.reset)) = some ⟨none, none, none, false, false, false, 0, [0x89]⟩ := by
  decide

theorem test_put_in_chunk :
    view? (step (fed 0x010000000000000000 inChunk)) =
      some ⟨some 0x575E51F5, none, none, true, false, true, 4, []⟩ := by decide

theorem test_putc_in_stream_leaves_adler :
    view? (step (fed 0x020000000000000055 inStream)) =
      some ⟨some 0x5ECD1C8F, some 1, some 0, true, true, false, 0, [0x55]⟩ := by decide

theorem test_putc_after_reset :
    view? (step (fed 0x020000000000000000 State.reset)) = some ⟨none, none, none, false, false, true, 3, []⟩ := by decide

theorem test_putca_both_wrap :
    view? (step (fed 0x0300000000000000FF (st (some 0) (some 0xFFF0) (some 0xFFF0) true true false 0))) =
      some ⟨some 0x2D02EF8D, some 0x00FE, some 0x00FD, true, true, false, 0, [0xFF]⟩ := by decide

theorem test_putca_without_stream :
    view? (step (fed 0x030000000000000000 inChunk)) =
      some ⟨some 0x575E51F5, none, none, true, false, true, 5, []⟩ := by decide

theorem test_chb_mixed_fields :
    view? (step (fed 0x10FFFFFFFF01020304 State.reset)) =
      some ⟨some 0, none, none, true, false, false, 0, [1, 2, 3, 4, 0xFF, 0xFF, 0xFF, 0xFF]⟩ := by decide

theorem test_chb_in_chunk :
    view? (step (fed 0x1049454E4400000000 inChunk)) =
      some ⟨some 0x575E51F5, none, none, true, false, true, 2, []⟩ := by decide

theorem test_che_keeps_c :
    view? (step (fed 0x110000000000000000 (st (some 0x51BD9F7D) none none true false false 0))) =
      some ⟨some 0x51BD9F7D, none, none, false, false, false, 0, [0xAE, 0x42, 0x60, 0x82]⟩ := by decide

theorem test_che_in_stream :
    view? (step (fed 0x110000000000000000 inStream)) =
      some ⟨some 0x13E5812D, some 1, some 0, true, true, true, 7, []⟩ := by decide

theorem test_zhdr_reseeds :
    view? (step (fed 0x200000000000000000 (st (some 0xCA50F9E1) (some 0x1234) (some 0x5678) true false false 0))) =
      some ⟨some 0x13E5812D, some 1, some 0, true, true, false, 0, [0x78, 0x01]⟩ := by decide

theorem test_zhdr_in_stream :
    view? (step (fed 0x200000000000000000 inStream)) =
      some ⟨some 0x13E5812D, some 1, some 0, true, true, true, 6, []⟩ := by decide

theorem test_blkhdr_byte_order :
    view? (step (fed 0x210000000100001234 inStream)) =
      some ⟨some 0x094CC82A, some 1, some 0, true, true, false, 0, [0x01, 0x34, 0x12, 0xCB, 0xED]⟩ := by decide

theorem test_blkhdr_too_long :
    view? (step (fed 0x210000000100010000 inStream)) =
      some ⟨some 0x13E5812D, some 1, some 0, true, true, true, 8, []⟩ := by decide

theorem test_filt_moves_b :
    view? (step (fed 0x220000000000000000 (st (some 0xA8EA8500) (some 0x01FF) (some 0x07FF) true true false 0))) =
      some ⟨some 0x00A8EA85, some 0x01FF, some 0x09FE, true, true, false, 0, [0x00]⟩ := by decide

theorem test_ztrl_order :
    view? (step (fed 0x230000000000000000 (st (some 0x577FA491) (some 0x04FC) (some 0x1EEF) true true false 0))) =
      some ⟨some 0x443A1E11, some 0x04FC, some 0x1EEF, true, false, false, 0, [0x1E, 0xEF, 0x04, 0xFC]⟩ := by decide

theorem test_ztrl_after_reset :
    view? (step (fed 0x230000000000000000 State.reset)) = some ⟨none, none, none, false, false, true, 3, []⟩ := by decide

/-- Illegal comes before the `OPEN` check and the range check (R116, section 2.7). -/
theorem test_illegal_first :
    view? (step (fed 0x210000000200010000 State.reset)) = some ⟨none, none, none, false, false, true, 1, []⟩ := by decide

/-- A locked engine discards an illegal word and keeps its code (R118, section 2.7). -/
theorem test_lock_discards_illegal :
    view? (step (fed 0xEE0000000000000000 locked)) =
      some ⟨some 1, none, none, true, false, true, 2, []⟩ := by decide

/-- The reset pin unlocks and keeps the output (R136; program P8). -/
theorem test_reset_pin :
    view? (step { inChunk with flt := true, fcode := 4, out := [0x0D], input := [.reset] }) =
      some ⟨none, none, none, false, false, false, 0, [0x0D]⟩ := by decide

/-- With nothing presented nothing changes (R30; log entry 6). -/
theorem test_idle : next? (step inChunk) = some inChunk := by decide

/-- The command index advances although the command is discarded (R19). -/
theorem test_index_advances_when_discarded :
    (next? (step (fed 0x110000000000000000 locked))).map (·.pos) = some 1 := by decide

theorem test_fetch_word :
    (next? (step (State.reset.withFetchWord 72 0x0100000000000000AB))).map (·.out) = some [0xAB] := by decide

theorem test_status_port : statusPort { locked with zs := true } = 0b1100101 := by decide

/-- The last command of program P4, its chunk still open: the run is faulted and unfinished, and not completed (R147). -/
theorem test_p4_end_of_run :
    ∃ t, next? (step (fed 0x110000000000000000 locked)) = some t ∧ Faulted t ∧ Unfinished t ∧ ¬ Completed t := by
  refine ⟨fed 0x110000000000000000 locked |> acceptCommand [], by decide, ?_⟩
  unfold Faulted Unfinished Completed
  decide

/-! ### The host sequence and the assembler -/

/-- Scenario B's zlib stream (section 1.2). -/
theorem test_zlib_stream_scenario_b :
    zlibStream 5 (imageRows ⟨1, 1, true, [10, 20, 30, 40]⟩) =
      [0x78, 0x01, 0x01, 0x05, 0x00, 0xFA, 0xFF, 0x00, 0x0A, 0x14, 0x1E, 0x28, 0x00, 0xCD, 0x00, 0x65] := by decide

/-- Scenario B's IHDR body, and the IEND chunk every file ends with (sections 1.2, 2.4; program P1). -/
theorem test_ihdr_body_and_iend_chunk :
    ihdrBody 1 1 6 = [0, 0, 0, 1, 0, 0, 0, 1, 8, 6, 0, 0, 0] ∧
    chunkBytes 0 tagIEND [] =
      [0x00, 0x00, 0x00, 0x00, 0x49, 0x45, 0x4E, 0x44, 0xAE, 0x42, 0x60, 0x82] := by decide

/-- Commands 24 to 35 of program P2, and 35 commands in all (section 3). -/
theorem test_encode_scenario_b :
    (encodeImage ⟨1, 1, true, [10, 20, 30, 40]⟩).map (fun is => (is.length, is.drop 23)) =
      some (35, [.chb 0x49444154 16, .zhdr, .blkhdr 1 5, .filt, .putca 10, .putca 20, .putca 30, .putca 40,
        .ztrl, .che, .chb 0x49454E44 0, .che]) := by decide

/-- The host refuses a pixel list of the wrong length (R98; log entry 13). -/
theorem test_encode_refuses_short_pixels : encodeImage ⟨1, 1, true, [10, 20, 30]⟩ = none := by decide

/-- The sink is unavailable: the host does nothing (R111, R128, section 1.3). -/
theorem test_no_sink_no_command : hostSession false [.che] = [] := by decide

theorem test_assemble_chb :
    assembleWord ['C', 'H', 'B', ' ', quoteChar, 'I', 'E', 'N', 'D', quoteChar, ',', ' ', '0', ' ', ';', 'x'] =
      some [0x1049454E4400000000] := by decide

theorem test_assemble_hex :
    assembleWord ['P', 'U', 'T', 'C', 'A', ' ', '0', 'x', '0', 'A'] = some [0x03000000000000000A] := by decide

theorem test_assemble_rejects_byte_256 : assembleWord ['P', 'U', 'T', ' ', '2', '5', '6'] = none := by decide

theorem test_assemble_rejects_short_tag :
    assembleWord ['C', 'H', 'B', ' ', quoteChar, 'I', 'E', quoteChar, ',', '0'] = none := by decide

/-- Double quotes inside a tag: an even number are characters of it, an odd number rejects the line (log entry 15). -/
theorem test_assemble_inner_quotes :
    assembleWord ['C', 'H', 'B', ' ', quoteChar, 'a', quoteChar, quoteChar, 'b', quoteChar, ',', '0'] =
      some [0x106122226200000000] ∧
    assembleWord ['C', 'H', 'B', ' ', quoteChar, 'a', 'b', quoteChar, 'c', quoteChar, ',', '0'] = none := by decide

/-- The most significant byte comes first; one more than 32 bits can hold is rejected (R101, R113). -/
theorem test_assemble_putc32 :
    assembleLine ['P', 'U', 'T', 'C', '3', '2', ' ', '0', 'x', '1', '0', '2', '0', '3', '0', '4'] =
      some [.putc 1, .putc 2, .putc 3, .putc 4] ∧
    assembleLine ['P', 'U', 'T', 'C', '3', '2', ' ', '0', 'x', '1', '0', '0', '0', '0', '0', '0', '0', '0'] = none := by
  decide

/-- Program P2 as its heading writes it (section 3). -/
theorem test_assemble_encode :
    assembleLine ['E', 'N', 'C', 'O', 'D', 'E', ' ', '1', ',', ' ', '1', ',', ' ', '1', ',', ' ',
      '[', '1', '0', ',', ' ', '2', '0', ',', ' ', '3', '0', ',', ' ', '4', '0', ']'] =
      encodeImage ⟨1, 1, true, [10, 20, 30, 40]⟩ := by decide

/-- A row of two pixel bytes, and one a byte short of its pitch (R104). -/
theorem test_assemble_row :
    assemblePseudo ['R', 'O', 'W'] [.number 1, .number 3, .number 10, .number 20] =
      some [.blkhdr 1 3, .filt, .putca 10, .putca 20] ∧
    assemblePseudo ['R', 'O', 'W'] [.number 1, .number 3, .number 10] = none := by decide

/-- The largest operands that fit, and a value one too large in each field (R113, R52). -/
theorem witness_PseudoInstructionsRejectOutOfRange :
    assemblePutc32 0xFFFFFFFF = some [.putc 255, .putc 255, .putc 255, .putc 255] ∧ assemblePutc32 0x100000000 = none ∧
    (assembleIhdr 0xFFFFFFFF 0xFFFFFFFF 255).map List.length = some 15 ∧ assembleIhdr 0x100000000 1 2 = none ∧
    assembleIhdr 1 0x100000000 2 = none ∧ assembleIhdr 1 1 256 = none := by decide

/-! ### Witnesses: each statement's hypotheses can be met, clause by clause, at the ends of their ranges -/

theorem witness_LegalityIsExact :
    ∃ s : State, s.input = .command 0x110000000000000001 :: [] ∧ s.flt = false ∧
      wordLegal 0x110000000000000001 = false ∧ wordLegal 0x110000000000000000 = true :=
  ⟨fed 0x110000000000000001 State.reset, by decide⟩

theorem witness_EncodeInvertsDecode : decode 0x0300000000000000FF = .ok (.putca 0xFF) := by decide

theorem witness_DecoderMatchesOpcodeTable :
    (⟨"BLKHDR", 0xFFFFFFFFFE00000000, 0x210000000000000000⟩ : OpcodeRow) ∈ opcodeTable := by decide

theorem witness_OperandsArePlainFields : decode 0x2100000001FFFFFFFF = .ok (.blkhdr 1 0xFFFFFFFF) := by decide

theorem witness_AdlerByteSums : (65520 : Half).toNat ≤ 65520 ∧ (0 : Half).toNat ≤ 65520 := by decide

theorem witness_PutResult_runs : State.reset.flt = false ∧ State.reset.isOpen = false := by decide
theorem witness_PutResult_faults : inChunk.flt = false ∧ inChunk.isOpen = true := by decide

theorem witness_PutcResult_runs :
    inChunk.flt = false ∧ inChunk.isOpen = true ∧ inChunk.c = some 0x575E51F5 := by decide
theorem witness_PutcResult_faults : State.reset.flt = false ∧ State.reset.isOpen = false := by decide

/-- Sums at the top of their range. -/
def topSums : State := st (some 0) (some 65520) (some 65520) true true false 0

theorem witness_PutcaResult_runs :
    topSums.flt = false ∧ topSums.isOpen = true ∧ topSums.zs = true ∧ topSums.c = some 0 ∧
    topSums.a = some 65520 ∧ topSums.b = some 65520 ∧ (65520 : Half).toNat ≤ 65520 := by decide
theorem witness_PutcaResult_faults_3 : State.reset.flt = false ∧ State.reset.isOpen = false := by decide
theorem witness_PutcaResult_faults_5 :
    inChunk.flt = false ∧ inChunk.isOpen = true ∧ inChunk.zs = false := by decide

theorem witness_ChbResult_runs : State.reset.flt = false ∧ State.reset.isOpen = false := by decide
theorem witness_ChbResult_invariants : EngineInv State.reset ∧ State.reset.isOpen = false :=
  ⟨⟨by decide, by decide, by decide, by simp [adlerInRange, State.reset], by simp [adlerInRange, State.reset],
    by decide, by decide, by decide⟩, by decide⟩
theorem witness_ChbResult_faults : inChunk.flt = false ∧ inChunk.isOpen = true := by decide

theorem witness_CheResult_runs :
    inChunk.flt = false ∧ inChunk.isOpen = true ∧ inChunk.zs = false ∧ inChunk.c = some 0x575E51F5 := by decide
theorem witness_CheResult_faults_3 : State.reset.flt = false ∧ State.reset.isOpen = false := by decide
theorem witness_CheResult_faults_7 :
    inStream.flt = false ∧ inStream.isOpen = true ∧ inStream.zs = true := by decide

theorem witness_ZhdrResult_runs :
    inChunk.flt = false ∧ inChunk.isOpen = true ∧ inChunk.zs = false ∧ inChunk.c = some 0x575E51F5 := by decide
theorem witness_ZhdrResult_faults_3 : State.reset.flt = false ∧ State.reset.isOpen = false := by decide
theorem witness_ZhdrResult_faults_6 :
    inStream.flt = false ∧ inStream.isOpen = true ∧ inStream.zs = true := by decide

theorem witness_BlkhdrResult_runs_at_limit :
    inStream.flt = false ∧ inStream.isOpen = true ∧ inStream.zs = true ∧ inStream.c = some 0x13E5812D ∧
    (0xFFFF : Word).toNat ≤ 0xFFFF := by decide
theorem witness_BlkhdrResult_faults_3 : State.reset.flt = false ∧ State.reset.isOpen = false := by decide
theorem witness_BlkhdrResult_faults_5 :
    inChunk.flt = false ∧ inChunk.isOpen = true ∧ inChunk.zs = false := by decide
theorem witness_BlkhdrResult_faults_8_above_limit :
    inStream.flt = false ∧ inStream.isOpen = true ∧ inStream.zs = true ∧ 0xFFFF < (0x10000 : Word).toNat := by decide

theorem witness_FiltResult_runs :
    topSums.flt = false ∧ topSums.isOpen = true ∧ topSums.zs = true ∧ topSums.c = some 0 ∧
    topSums.a = some 65520 ∧ topSums.b = some 65520 ∧ (65520 : Half).toNat ≤ 65520 := by decide
theorem witness_FiltResult_faults_3 : State.reset.flt = false ∧ State.reset.isOpen = false := by decide
theorem witness_FiltResult_faults_5 :
    inChunk.flt = false ∧ inChunk.isOpen = true ∧ inChunk.zs = false := by decide

theorem witness_ZtrlResult_runs :
    topSums.flt = false ∧ topSums.isOpen = true ∧ topSums.zs = true ∧ topSums.c = some 0 ∧
    topSums.a = some 65520 ∧ topSums.b = some 65520 := by decide
theorem witness_ZtrlResult_faults_3 : State.reset.flt = false ∧ State.reset.isOpen = false := by decide
theorem witness_ZtrlResult_faults_5 :
    inChunk.flt = false ∧ inChunk.isOpen = true ∧ inChunk.zs = false := by decide

theorem witness_StepRunsDecodedCommand :
    (fed 0x110000000000000000 inChunk).input = .command 0x110000000000000000 :: [] ∧
    decode 0x110000000000000000 = .ok .che := by decide

theorem witness_ResetPinResult : ({ inStream with input := [.reset] } : State).input = .reset :: [] := by decide

theorem witness_StepTakesOneInput_idle : next? (step inStream) = some inStream ∧ inStream.input = [] := by decide
theorem witness_StepTakesOneInput_command :
    (next? (step (fed 0x220000000000000000 inStream))).isSome = true := by decide
theorem witness_StepTakesOneInput_reset :
    (next? (step { inStream with input := [.reset] })).isSome = true := by decide

theorem witness_FirstFailingCheck_locked :
    (fed 0 locked).input = .command 0 :: [] ∧ (fed 0 locked).flt = true := by decide
theorem witness_FirstFailingCheck_illegal : firstFailingCheck 0x210000000200010000 false false = some .illegalCommand := by
  decide
theorem witness_FirstFailingCheck_open : firstFailingCheck 0x210000000000010000 false false = some .chunkNotOpen := by decide
theorem witness_FirstFailingCheck_stream : firstFailingCheck 0x210000000000010000 true false = some .streamNotOpen := by decide
theorem witness_FirstFailingCheck_range : firstFailingCheck 0x210000000000010000 true true = some .lenOverflow := by decide
theorem witness_FirstFailingCheck_executes : firstFailingCheck 0x21000000000000FFFF true true = none := by decide

theorem witness_FaultEntryIsPrecise :
    inChunk.flt = false ∧
    (next? (step (fed 0x010000000000000000 inChunk))).map (·.flt) = some true := by decide

theorem witness_FaultLockDiscards :
    ({ locked with input := [.command 0, .command 1, .reset] } : State).flt = true ∧
    ({ locked with input := [.command 0, .command 1, .reset] } : State).input =
      [(0 : CmdWord), 1].map .command ++ [.reset] := by decide

theorem witness_FaultsIgnoreRegisters :
    (fed 0x110000000000000000 inChunk).isOpen = (fed 0x110000000000000000 { inChunk with c := some 0 }).isOpen ∧
    (next? (step (fed 0x110000000000000000 inChunk))).isSome = true ∧
    (next? (step (fed 0x110000000000000000 { inChunk with c := some 0 }))).isSome = true := by decide

theorem witness_OnlyResetClearsFault :
    locked.flt = true ∧ (next? (step { locked with input := [.reset] })).map (·.flt) = some false := by decide

theorem witness_CommandFrame : (next? (exec .ztrl inStream)).isSome = true := by decide
theorem witness_BytesPerCommand_runs : (next? (exec (.chb 0 0) State.reset)).map (·.out.length) = some 8 := by decide
theorem witness_BytesPerCommand_faults : (next? (exec .che State.reset)).map (·.out.length) = some 0 := by decide
theorem witness_OutputIsAppendOnly : (next? (step (fed 0x110000000000000000 inChunk))).isSome = true := by decide

theorem witness_EmittedBytesIgnoreRegisters :
    Instr.putc 7 ≠ .che ∧ Instr.putc 7 ≠ .ztrl ∧
    inChunk.isOpen = ({ inChunk with c := none } : State).isOpen ∧
    (next? (exec (.putc 7) inChunk)).isSome = true := by decide

/-- The invariants hold in a state with a chunk and a stream open and the sums at the top of their range. -/
theorem witness_StepKeepsInvariants : EngineInv topSums :=
  ⟨by decide, by decide, by decide,
   by intro v h; simp only [topSums, st] at h; cases h; decide,
   by intro v h; simp only [topSums, st] at h; cases h; decide,
   by decide, by decide, by decide⟩

theorem witness_NoReadOfMissingValue : EngineInv topSums ∧ (next? (exec .ztrl topSums)).isSome = true :=
  ⟨witness_StepKeepsInvariants, by decide⟩

/-- Two states that differ in a stale `C` and stale sums. -/
theorem witness_StaleValuesUnobservable :
    SameObservable (fed 0x1049454E4400000000 (st (some 1) (some 2) none false false false 0))
      (fed 0x1049454E4400000000 State.reset) ∧
    (next? (step (fed 0x1049454E4400000000 (st (some 1) (some 2) none false false false 0)))).isSome = true :=
  ⟨⟨rfl, rfl, rfl, rfl, rfl, rfl, rfl, by decide, by decide, by decide⟩, by decide⟩

/-- One body byte between CHB and CHE runs without a fault. -/
theorem witness_WholeChunkResult :
    State.reset.flt = false ∧ Instr.che ∉ [Instr.putc 1] ∧
    (next? (runCommands ([.chb 0x49444154 1] ++ [.putc 1] ++ [.che]) State.reset)).map (·.flt) = some false := by decide

theorem witness_TrailerIsAdler32 :
    inChunk.flt = false ∧ Instr.ztrl ∉ [Instr.filt] ∧
    (next? (runCommands ([.zhdr] ++ [.filt] ++ [.ztrl]) inChunk)).map (·.flt) = some false := by decide

theorem witness_WholeBlockResult :
    topSums.flt = false ∧ topSums.isOpen = true ∧ topSums.zs = true ∧ topSums.c = some 0 ∧
    topSums.a = some 65520 ∧ topSums.b = some 65520 ∧ (65520 : Half).toNat ≤ 65520 := by decide

theorem witness_WholeStreamResult :
    inChunk.flt = false ∧ inChunk.isOpen = true ∧ inChunk.zs = false ∧ inChunk.c = some 0x575E51F5 ∧
    ∀ row ∈ [[(1 : Byte), 2, 3], [4, 5, 6]], row.length + 1 = (4 : Half).toNat := by decide

theorem witness_RowBoundInWidths :
    rowFits ⟨21844, 1, false, []⟩ = true ∧ rowFits ⟨21845, 1, false, []⟩ = false ∧
    rowFits ⟨16383, 1, true, []⟩ = true ∧ rowFits ⟨16384, 1, true, []⟩ = false := by decide

end Sys2Proof.Tests
end

section
/-! The status port (spec/10_state.md R21): what each of its bits reads, and what it does not depend on. -/

namespace Sys2Proof.Machine

/-- The port bit by bit, from bit 0 up: `FLT`, the four bits of `FCODE`, `OPEN`, `ZS` (R21). -/
theorem statusPort_getLsbD (s : State) (i : Nat) :
    (statusPort s).getLsbD i =
      if i < 1 then (BitVec.ofBool s.flt).getLsbD i
      else if i - 1 < 4 then s.fcode.getLsbD (i - 1)
      else if i - 1 - 4 < 1 then (BitVec.ofBool s.isOpen).getLsbD (i - 1 - 4)
      else (BitVec.ofBool s.zs).getLsbD (i - 1 - 4 - 1) := by
  -- The port is declared 7 bits wide, the concatenation `1 + 1 + 4 + 1`: the cast lets the append lemma apply.
  have hwidth : statusPort s =
      (BitVec.ofBool s.zs ++ BitVec.ofBool s.isOpen ++ s.fcode ++ BitVec.ofBool s.flt).cast rfl := rfl
  rw [hwidth, BitVec.getLsbD_cast, BitVec.getLsbD_append, BitVec.getLsbD_append, BitVec.getLsbD_append]

/-- Bit 0 of the port is `FLT` (R21). -/
theorem statusPort_bit_flt (s : State) : (statusPort s).getLsbD 0 = s.flt := by
  rw [statusPort_getLsbD]
  simp

/-- Bits 4:1 of the port are `FCODE` (R21). -/
theorem statusPort_field_fcode (s : State) : (statusPort s).extractLsb 4 1 = s.fcode := by
  apply BitVec.eq_of_getLsbD_eq
  intro i hi
  have hbit : (statusPort s).getLsbD (1 + i) = s.fcode.getLsbD i := by
    rw [statusPort_getLsbD, if_neg (by omega), if_pos (by omega), Nat.add_sub_cancel_left]
  rw [BitVec.getLsbD_extractLsb, hbit]
  simp [hi]

/-- Bit 5 of the port is `OPEN` (R21). -/
theorem statusPort_bit_isOpen (s : State) : (statusPort s).getLsbD 5 = s.isOpen := by
  rw [statusPort_getLsbD]
  simp

/-- Bit 6 of the port is `ZS` (R21). -/
theorem statusPort_bit_zs (s : State) : (statusPort s).getLsbD 6 = s.zs := by
  rw [statusPort_getLsbD]
  simp

/-- The port is a function of its four fields: two states that agree on them read the same (R21). -/
theorem statusPort_congr {s t : State} (hflt : s.flt = t.flt) (hfcode : s.fcode = t.fcode)
    (hopen : s.isOpen = t.isOpen) (hzs : s.zs = t.zs) : statusPort s = statusPort t := by
  simp only [statusPort, hflt, hfcode, hopen, hzs]

/-- After reset every bit of the port is 0 (R21, R25). -/
@[simp] theorem statusPort_reset : statusPort State.reset = 0 := by decide

/-- Settles O27: one lemma per field of the port, its value after reset, and its independence of `C`, `A`, `B`. -/
theorem statusPortFields : Obligations.StatusPortFields := by
  refine ⟨fun s => ?fields, statusPort_reset, fun s c a b => ?sums⟩
  case fields =>
    exact ⟨statusPort_bit_flt s, statusPort_field_fcode s, statusPort_bit_isOpen s, statusPort_bit_zs s⟩
  case sums => exact statusPort_congr rfl rfl rfl rfl

end Sys2Proof.Machine
end

section
/-! Encoding (spec/30_encoding.md R42 to R50): the fields the decoder cuts out, read as ranges of the word's bits; when a
word decodes to a given command; which words are legal; and what a step does with one that is not. -/

namespace Sys2Proof

/-! ### Fields of a word -/

/-- A field of a field is a field of the word. -/
theorem extractLsb'_extractLsb'_add {width a b m n : Nat} (w : BitVec width) (h : b + n ≤ m) :
    (w.extractLsb' a m).extractLsb' b n = w.extractLsb' (a + b) n := by
  apply BitVec.eq_of_getElem_eq
  intro k hk
  rw [BitVec.getElem_extractLsb', BitVec.getElem_extractLsb', BitVec.getLsbD_extractLsb',
    decide_eq_true (by omega : b + k < m), Bool.true_and, Nat.add_assoc]

/-- A concatenation is 0 exactly when both of its parts are. -/
theorem append_eq_zero_iff {m n : Nat} (x : BitVec m) (y : BitVec n) : x ++ y = 0#(m + n) ↔ x = 0 ∧ y = 0 := by
  constructor
  · intro h
    have hx := congrArg (BitVec.extractLsb' n m) h
    have hy := congrArg (BitVec.extractLsb' 0 n) h
    rw [BitVec.extractLsb'_append_eq_left, BitVec.extractLsb'_zero] at hx
    rw [BitVec.extractLsb'_append_eq_right, BitVec.extractLsb'_zero] at hy
    exact ⟨hx, hy⟩
  · rintro ⟨rfl, rfl⟩
    exact BitVec.zero_append_zero

/-- The byte operand is `w[7:0]` (R48). -/
theorem byteOperand_yField (w : CmdWord) : byteOperand (yField w) = w.extractLsb 7 0 :=
  extractLsb'_extractLsb'_add w (by decide)

/-- The final flag is `w[32]` (R48). -/
theorem finalOperand_xField (w : CmdWord) : finalOperand (xField w) = w.extractLsb 32 32 :=
  extractLsb'_extractLsb'_add w (by decide)

/-- The reserved bits of format BH are `w[63:33]` (R47). -/
theorem finalReserved_xField (w : CmdWord) : finalReserved (xField w) = w.extractLsb 63 33 :=
  extractLsb'_extractLsb'_add w (by decide)

/-- The two parts format B reserves are together `w[63:8]` (R44). -/
theorem byteReserved_zero_iff (w : CmdWord) :
    (xField w = 0 ∧ byteReserved (yField w) = 0) ↔ w.extractLsb 63 8 = 0 := by
  have hlow : byteReserved (yField w) = w.extractLsb' 8 24 := extractLsb'_extractLsb'_add w (by decide)
  have hjoin : xField w ++ w.extractLsb' 8 24 = w.extractLsb 63 8 :=
    BitVec.extractLsb'_append_extractLsb'_eq_extractLsb' rfl
  rw [hlow, ← append_eq_zero_iff, hjoin]
  rfl

/-- The two fields format N reserves are together `w[63:0]` (R45). -/
theorem xyField_zero_iff (w : CmdWord) : (xField w = 0 ∧ yField w = 0) ↔ w.extractLsb 63 0 = 0 := by
  have hjoin : xField w ++ yField w = w.extractLsb 63 0 := BitVec.extractLsb'_append_extractLsb'_eq_extractLsb' rfl
  rw [← append_eq_zero_iff, hjoin]
  rfl

/-! ### When a word decodes to a command -/

/-- A decoder of one format answers with a command exactly when its check on the reserved bits holds. -/
theorem ite_ok_eq_ok_iff (p : Prop) [Decidable p] (j i : Instr) (e : Illegal) :
    (if p then Except.ok j else Except.error e) = Except.ok i ↔ p ∧ j = i := by
  by_cases h : p <;> simp [h]

/-- A format B word decodes exactly when `w[63:8]` is 0, and its operand is `w[7:0]`. -/
theorem decodeB_eq_ok_iff (op : BitVec 8) (w : CmdWord) (mk : Byte → Instr) (i : Instr) :
    decodeB op (xField w) (yField w) mk = .ok i ↔ w.extractLsb 63 8 = 0 ∧ mk (w.extractLsb 7 0) = i := by
  rw [decodeB, ite_ok_eq_ok_iff, byteReserved_zero_iff, byteOperand_yField]

/-- A format N word decodes exactly when `w[63:0]` is 0. -/
theorem decodeN_eq_ok_iff (op : BitVec 8) (w : CmdWord) (j i : Instr) :
    decodeN op (xField w) (yField w) j = .ok i ↔ w.extractLsb 63 0 = 0 ∧ j = i := by
  rw [decodeN, ite_ok_eq_ok_iff, xyField_zero_iff]

/-- A format BH word decodes exactly when `w[63:33]` is 0, and its operands are `w[32]` and `w[31:0]`. -/
theorem decodeBH_eq_ok_iff (op : BitVec 8) (w : CmdWord) (i : Instr) :
    decodeBH op (xField w) (yField w) = .ok i ↔
      w.extractLsb 63 33 = 0 ∧ .blkhdr (w.extractLsb 32 32) (w.extractLsb 31 0) = i := by
  rw [decodeBH, ite_ok_eq_ok_iff, finalReserved_xField, finalOperand_xField]
  rfl

/-- The word `w` is one of the command `i`, read off the bits: its opcode (R49), its reserved bits 0 (R44, R45, R47) and
its operand fields (R48). -/
def IsWordOf (w : CmdWord) (i : Instr) : Prop :=
  match i with
  | .put u => w.extractLsb 71 64 = 0x01 ∧ w.extractLsb 63 8 = 0 ∧ u = w.extractLsb 7 0
  | .putc u => w.extractLsb 71 64 = 0x02 ∧ w.extractLsb 63 8 = 0 ∧ u = w.extractLsb 7 0
  | .putca u => w.extractLsb 71 64 = 0x03 ∧ w.extractLsb 63 8 = 0 ∧ u = w.extractLsb 7 0
  | .chb tag len => w.extractLsb 71 64 = 0x10 ∧ tag = w.extractLsb 63 32 ∧ len = w.extractLsb 31 0
  | .che => w.extractLsb 71 64 = 0x11 ∧ w.extractLsb 63 0 = 0
  | .zhdr => w.extractLsb 71 64 = 0x20 ∧ w.extractLsb 63 0 = 0
  | .blkhdr final len =>
    w.extractLsb 71 64 = 0x21 ∧ w.extractLsb 63 33 = 0 ∧ final = w.extractLsb 32 32 ∧ len = w.extractLsb 31 0
  | .filt => w.extractLsb 71 64 = 0x22 ∧ w.extractLsb 63 0 = 0
  | .ztrl => w.extractLsb 71 64 = 0x23 ∧ w.extractLsb 63 0 = 0

/-- The decoder is exact: a word decodes to a command exactly when its bits are those of the command. -/
theorem decode_eq_ok_iff (w : CmdWord) (i : Instr) : decode w = .ok i ↔ IsWordOf w i := by
  have hop : opField w = w.extractLsb 71 64 := rfl
  constructor
  · intro h
    rw [decode, hop] at h
    split_ifs at h with h01 h02 h03 h10 h11 h20 h21 h22 h23
    · obtain ⟨hres, rfl⟩ := (decodeB_eq_ok_iff _ w _ i).mp h
      exact ⟨h01, hres, rfl⟩
    · obtain ⟨hres, rfl⟩ := (decodeB_eq_ok_iff _ w _ i).mp h
      exact ⟨h02, hres, rfl⟩
    · obtain ⟨hres, rfl⟩ := (decodeB_eq_ok_iff _ w _ i).mp h
      exact ⟨h03, hres, rfl⟩
    · cases h
      exact ⟨h10, rfl, rfl⟩
    · obtain ⟨hres, rfl⟩ := (decodeN_eq_ok_iff _ w _ i).mp h
      exact ⟨h11, hres⟩
    · obtain ⟨hres, rfl⟩ := (decodeN_eq_ok_iff _ w _ i).mp h
      exact ⟨h20, hres⟩
    · obtain ⟨hres, rfl⟩ := (decodeBH_eq_ok_iff _ w i).mp h
      exact ⟨h21, hres, rfl, rfl⟩
    · obtain ⟨hres, rfl⟩ := (decodeN_eq_ok_iff _ w _ i).mp h
      exact ⟨h22, hres⟩
    · obtain ⟨hres, rfl⟩ := (decodeN_eq_ok_iff _ w _ i).mp h
      exact ⟨h23, hres⟩
  · intro h
    cases i <;> simp only [IsWordOf] at h <;> simp only [decode, hop, h, reduceIte, BitVec.reduceEq]
    case put | putc | putca =>
      obtain ⟨-, hres, -⟩ := h
      exact (decodeB_eq_ok_iff _ w _ _).mpr ⟨hres, rfl⟩
    case chb => rfl
    case che | zhdr | filt | ztrl =>
      obtain ⟨-, hres⟩ := h
      exact (decodeN_eq_ok_iff _ w _ _).mpr ⟨hres, rfl⟩
    case blkhdr =>
      obtain ⟨-, hres, -⟩ := h
      exact (decodeBH_eq_ok_iff _ w _).mpr ⟨hres, rfl⟩

/-- Settles O6: a word that decodes to a command is a word of it, operand fields included. -/
theorem operandsArePlainFields : Obligations.OperandsArePlainFields := by
  intro w i h
  have hword := (decode_eq_ok_iff w i).mp h
  cases i with
  | put u | putc u | putca u =>
    obtain ⟨-, -, hu⟩ := hword
    exact hu
  | chb tag len =>
    obtain ⟨-, hoperands⟩ := hword
    exact hoperands
  | blkhdr final len =>
    obtain ⟨-, -, hoperands⟩ := hword
    exact hoperands
  | che | zhdr | filt | ztrl => trivial

/-! ### Legality -/

/-- R50's sentence: the opcode is one of the nine, and the bits its format reserves are 0. -/
def LegalBits (w : CmdWord) : Prop :=
  ((w.extractLsb 71 64 = 0x01 ∨ w.extractLsb 71 64 = 0x02 ∨ w.extractLsb 71 64 = 0x03) ∧ w.extractLsb 63 8 = 0) ∨
  ((w.extractLsb 71 64 = 0x11 ∨ w.extractLsb 71 64 = 0x20 ∨ w.extractLsb 71 64 = 0x22 ∨ w.extractLsb 71 64 = 0x23) ∧
    w.extractLsb 63 0 = 0) ∨
  w.extractLsb 71 64 = 0x10 ∨
  (w.extractLsb 71 64 = 0x21 ∧ w.extractLsb 63 33 = 0)

/-- A word decodes exactly when it is legal (R50): each of the nine opcodes has its command, and no command another. -/
theorem exists_decode_iff_legalBits (w : CmdWord) : (∃ i, decode w = .ok i) ↔ LegalBits w := by
  simp only [decode_eq_ok_iff]
  constructor
  · rintro ⟨i, h⟩
    cases i <;> simp only [IsWordOf] at h <;> simp [LegalBits, h]
  · rintro (⟨h01 | h02 | h03, hres⟩ | ⟨h11 | h20 | h22 | h23, hres⟩ | h10 | ⟨h21, hres⟩)
    · exact ⟨.put _, h01, hres, rfl⟩
    · exact ⟨.putc _, h02, hres, rfl⟩
    · exact ⟨.putca _, h03, hres, rfl⟩
    · exact ⟨.che, h11, hres⟩
    · exact ⟨.zhdr, h20, hres⟩
    · exact ⟨.filt, h22, hres⟩
    · exact ⟨.ztrl, h23, hres⟩
    · exact ⟨.chb _ _, h10, rfl, rfl⟩
    · exact ⟨.blkhdr _ _, h21, hres, rfl, rfl⟩

/-- The predicate `wordLegal` is R50's sentence. -/
theorem wordLegal_iff_legalBits (w : CmdWord) : wordLegal w = true ↔ LegalBits w := by
  simp only [wordLegal, opFormat]
  split_ifs with hB hCH hN hBH
  · rcases hB with h | h | h <;> simp [LegalBits, reservedZero, h]
  · simp [LegalBits, reservedZero, hCH]
  · rcases hN with h | h | h | h <;> simp [LegalBits, reservedZero, h]
  · simp [LegalBits, reservedZero, hBH]
  · simp_all [LegalBits]

end Sys2Proof

namespace Sys2Proof.Machine

/-- An illegal word presented with `FLT = 0` is accepted and records fault 1; nothing else changes (R50, R117, R119). -/
theorem step_of_not_legalBits {s : State} {w : CmdWord} {rest : List HostInput} (hinput : s.input = .command w :: rest)
    (hflt : s.flt = false) (hillegal : ¬ LegalBits w) :
    step s = .next (raiseFault .illegalCommand (acceptCommand rest s)) := by
  rw [← exists_decode_iff_legalBits] at hillegal
  cases hdecode : decode w with
  | ok i => exact absurd ⟨i, hdecode⟩ hillegal
  | error e =>
    have hstep : step s = illegalWord (acceptCommand rest s) := by simp only [step, hinput, hdecode]
    rw [hstep, illegalWord, unlessLocked_of_not_flt (by rw [acceptCommand_flt, hflt])]

/-- Settles O2: the decoder and `wordLegal` both come down to R50's sentence, and the decoder's refusal is what the step
turns into fault 1. -/
theorem legalityIsExact : Obligations.LegalityIsExact := fun w =>
  ⟨exists_decode_iff_legalBits w, wordLegal_iff_legalBits w, fun _ _ hinput hflt hillegal =>
    step_of_not_legalBits hinput hflt hillegal⟩

end Sys2Proof.Machine
end

section
/-! The Adler step in numbers (spec/40_checksum.md R66, R67). -/

namespace Sys2Proof.Machine

/-- A reduced sum fits 16 bits, so its register holds it as a number (R66). -/
theorem adlerAdd_toNat (x y : Nat) : (adlerAdd x y).toNat = (x + y) % 65521 := by
  have hfits : (x + y) % 65521 < 2 ^ 16 := by omega
  rw [adlerAdd, adlerModulus, BitVec.toNat_ofNat, Nat.mod_eq_of_lt hfits]

/-- Settles O12: each sum is one reduced addition. The reduction alone keeps it within 16 bits, so the premises on `a` and
`b` are not used. -/
theorem adlerByteSums : Obligations.AdlerByteSums := fun _ _ _ _ _ =>
  ⟨adlerAdd_toNat _ _, adlerAdd_toNat _ _⟩

/-- The Adler step with the new first sum written out in the second (R67). -/
theorem adlerByte_eq (a b : Half) (u : Byte) :
    adlerByte (a, b) u =
      (BitVec.ofNat 16 ((a.toNat + u.toNat) % 65521),
       BitVec.ofNat 16 ((b.toNat + (a.toNat + u.toNat) % 65521) % 65521)) := by
  simp only [adlerByte, adlerAdd_toNat]
  rfl

end Sys2Proof.Machine
end

section
/-! The words of the byte commands (spec/30_encoding.md R43, R44, R48): the fields of a packed word, and what a format B word
decodes to. -/

namespace Sys2Proof

/-- The field `y` of a packed word. -/
@[simp] theorem yField_packWord (op : BitVec 8) (x y : Word) : yField (packWord op x y) = y :=
  BitVec.extractLsb'_append_eq_right

/-- The field `x` of a packed word. -/
@[simp] theorem xField_packWord (op : BitVec 8) (x y : Word) : xField (packWord op x y) = x := by
  have hhigh : (packWord op x y).extractLsb' 32 40 = op ++ x := BitVec.extractLsb'_append_eq_left
  have hfield : ((packWord op x y).extractLsb' 32 40).extractLsb' 0 32 = xField (packWord op x y) :=
    extractLsb'_extractLsb'_add _ (by decide)
  rw [← hfield, hhigh, BitVec.extractLsb'_append_eq_right]

/-- A byte widened to the field `y` is read back by the operand extraction of format B (R48). -/
theorem byteOperand_setWidth (u : Byte) : byteOperand (u.setWidth 32) = u := by
  revert u
  decide

/-- A byte widened to the field `y` leaves the bits 0 that format B reserves there (R44). -/
theorem byteReserved_setWidth (u : Byte) : byteReserved (u.setWidth 32) = 0 := by
  revert u
  decide

/-- A format B word has its opcode, its reserved bits 0, and the byte it was packed from as its operand (R43, R44, R48). -/
theorem formatB_bits (op u : BitVec 8) :
    (packWord op 0 (u.setWidth 32)).extractLsb 71 64 = op ∧
    (packWord op 0 (u.setWidth 32)).extractLsb 63 8 = 0 ∧
    u = (packWord op 0 (u.setWidth 32)).extractLsb 7 0 := by
  refine ⟨Laws.EncodedLegal.packWord_op _ _ _, ?reserved, ?operand⟩
  case reserved =>
    rw [← byteReserved_zero_iff, xField_packWord, yField_packWord]
    exact ⟨rfl, byteReserved_setWidth u⟩
  case operand => rw [← byteOperand_yField, yField_packWord, byteOperand_setWidth]

/-- The format B word of op 0x01 is `PUT u` (R44, R49). -/
theorem decode_putWord (u : Byte) : decode (packWord 0x01 0 (u.setWidth 32)) = .ok (.put u) :=
  (decode_eq_ok_iff _ _).mpr (formatB_bits 0x01 u)

/-- The format B word of op 0x02 is `PUTC u` (R44, R49). -/
theorem decode_putcWord (u : Byte) : decode (packWord 0x02 0 (u.setWidth 32)) = .ok (.putc u) :=
  (decode_eq_ok_iff _ _).mpr (formatB_bits 0x02 u)

/-- The format B word of op 0x03 is `PUTCA u` (R44, R49). -/
theorem decode_putcaWord (u : Byte) : decode (packWord 0x03 0 (u.setWidth 32)) = .ok (.putca u) :=
  (decode_eq_ok_iff _ _).mpr (formatB_bits 0x03 u)

end Sys2Proof
end

section
/-! What the byte commands PUT, PUTC and PUTCA do (spec/40_checksum.md R70 to R72). With `FLT = 0` a command's outcome is
settled by its check alone: run whole, or record the fault of the check that failed (R116). -/

namespace Sys2Proof.Machine

/-- With no fault recorded and every check passed, a command has its whole effect (R116, line 6). -/
theorem exec_of_check_none {i : Instr} {s : State} (hflt : s.flt = false)
    (hcheck : commandCheck i s.isOpen s.zs = none) : exec i s = .next (commandEffect i s) := by
  simp [exec_cases, hflt, hcheck]

/-- With no fault recorded, a failing check records its fault and does nothing else (R116, R117). -/
theorem exec_of_check_some {i : Instr} {s : State} {k : FaultCode} (hflt : s.flt = false)
    (hcheck : commandCheck i s.isOpen s.zs = some k) : exec i s = .next (raiseFault k s) := by
  simp [exec_cases, hflt, hcheck]

/-- The CRC path on one byte, from a `C` that holds a value (R8). -/
theorem emitCrc_byte {s : State} {c : Word} (hc : s.c = some c) (u : Byte) :
    emitCrc [u] s = { s with out := s.out ++ [u], c := some (crcByte c u) } := by
  rw [emitCrc_spec, readC_of_some hc]
  rfl

/-- The path through both checksums on one byte, from registers that hold values (R8). -/
theorem emitCrcAdler_byte {s : State} {c : Word} {a b : Half} (hc : s.c = some c) (ha : s.a = some a)
    (hb : s.b = some b) (u : Byte) :
    emitCrcAdler [u] s =
      { s with
        out := s.out ++ [u]
        c := some (crcByte c u)
        a := some (adlerByte (a, b) u).1
        b := some (adlerByte (a, b) u).2 } := by
  rw [emitCrcAdler_spec, readC_of_some hc, readA_of_some ha, readB_of_some hb]
  rfl

/-- Settles O14: PUT's one check is that no chunk is open; its effect is the raw emission of one byte. -/
theorem putResult : Obligations.PutResult := by
  refine fun u s => ⟨decode_putWord u, fun hflt hopen => ?runs, fun hflt hopen => ?fault4⟩
  case runs =>
    have hcheck : commandCheck (.put u) s.isOpen s.zs = none := by simp [commandCheck, hopen]
    exact exec_of_check_none hflt hcheck
  case fault4 =>
    have hcheck : commandCheck (.put u) s.isOpen s.zs = some .rawInChunk := by simp [commandCheck, hopen]
    exact exec_of_check_some hflt hcheck

/-- Settles O15: PUTC's one check is that a chunk is open, whatever `ZS` is; its effect is the CRC path on one byte. -/
theorem putcResult : Obligations.PutcResult := by
  refine fun u s => ⟨decode_putcWord u, fun c hflt hopen hc => ?runs, fun hflt hopen => ?fault3⟩
  case runs =>
    have hcheck : commandCheck (.putc u) s.isOpen s.zs = none := by simp [commandCheck, hopen]
    rw [exec_of_check_none hflt hcheck, commandEffect, emitCrc_byte hc]
  case fault3 =>
    have hcheck : commandCheck (.putc u) s.isOpen s.zs = some .chunkNotOpen := by simp [commandCheck, hopen]
    exact exec_of_check_some hflt hcheck

/-- Settles O16: PUTCA's checks are an open chunk, then an open stream; its effect is the path through both checksums on one
byte, and `adlerByte_eq` writes its two sums out. -/
theorem putcaResult : Obligations.PutcaResult := by
  refine fun u s => ⟨decode_putcaWord u, fun c a b hflt hopen hzs hc ha hb _ _ => ?runs,
    fun hflt hopen => ?fault3, fun hflt hopen hzs => ?fault5⟩
  case runs =>
    have hcheck : commandCheck (.putca u) s.isOpen s.zs = none := by simp [commandCheck, hopen, hzs]
    rw [exec_of_check_none hflt hcheck, commandEffect, emitCrcAdler_byte hc ha hb, adlerByte_eq]
  case fault3 =>
    have hcheck : commandCheck (.putca u) s.isOpen s.zs = some .chunkNotOpen := by simp [commandCheck, hopen]
    exact exec_of_check_some hflt hcheck
  case fault5 =>
    have hcheck : commandCheck (.putca u) s.isOpen s.zs = some .streamNotOpen := by simp [commandCheck, hopen, hzs]
    exact exec_of_check_some hflt hcheck

end Sys2Proof.Machine
end

section
/-! The words of the chunk framer (spec/30_encoding.md R43, R45, R46, R48): the bits of a packed format CH and format N word,
and what the words of ops 0x10 and 0x11 decode to. -/

namespace Sys2Proof

/-- A format CH word has its opcode, and the two fields it was packed from as its operands (R43, R46, R48). -/
theorem formatCH_bits (op : BitVec 8) (tag len : Word) :
    (packWord op tag len).extractLsb 71 64 = op ∧
    tag = (packWord op tag len).extractLsb 63 32 ∧
    len = (packWord op tag len).extractLsb 31 0 :=
  ⟨Laws.EncodedLegal.packWord_op op tag len, (xField_packWord op tag len).symm, (yField_packWord op tag len).symm⟩

/-- A format N word has its opcode, and its reserved bits 0 (R43, R45). -/
theorem formatN_bits (op : BitVec 8) :
    (packWord op 0 0).extractLsb 71 64 = op ∧ (packWord op 0 0).extractLsb 63 0 = 0 := by
  refine ⟨Laws.EncodedLegal.packWord_op op 0 0, ?reserved⟩
  case reserved =>
    rw [← xyField_zero_iff]
    exact ⟨xField_packWord op 0 0, yField_packWord op 0 0⟩

/-- The format CH word of op 0x10 is `CHB tag, len` (R46, R49). -/
theorem decode_chbWord (tag len : Word) : decode (packWord 0x10 tag len) = .ok (.chb tag len) :=
  (decode_eq_ok_iff _ _).mpr (formatCH_bits 0x10 tag len)

/-- The format N word of op 0x11 is `CHE` (R45, R49). -/
theorem decode_cheWord : decode (packWord 0x11 0 0) = .ok .che :=
  (decode_eq_ok_iff _ _).mpr (formatN_bits 0x11)

end Sys2Proof
end

section
/-! What the chunk framer's commands CHB and CHE do (spec/41_chunk_framer.md R78, R79). -/

namespace Sys2Proof.Machine

/-- The CRC path on the four bytes of a word (R7, R8). -/
theorem emitCrc_be32 (v : Word) (s : State) :
    emitCrc (be32 v) s = { s with out := s.out ++ be32 v, c := some (crcBytes (readC s) (be32 v)) } :=
  emitCrc_spec _ _ s

/-- CHB's effect: the length raw, the tag through the CRC from the seed, `OPEN` set. The old `C` does not enter (R78). -/
theorem commandEffect_chb (tag len : Word) (s : State) :
    commandEffect (.chb tag len) s =
      { s with
        out := s.out ++ (be32 len ++ be32 tag)
        c := some (crcBytes crcSeed (be32 tag))
        isOpen := true } := by
  rw [commandEffect, emitCrc_be32, readC_writeC, writeC_out, emit_out, List.append_assoc]
  rfl

/-- CHE's effect from a `C` that holds a value: the complement of `C` raw, `OPEN` cleared, `C` kept (R79). -/
theorem commandEffect_che {s : State} {c : Word} (hc : s.c = some c) :
    commandEffect .che s = { s with out := s.out ++ be32 (~~~c), isOpen := false } := by
  rw [commandEffect, readC_of_some hc]
  rfl

/-- No stream is open outside a chunk (R23 (iii), read backwards). -/
theorem EngineInv.zs_eq_false {s : State} (hinv : EngineInv s) (hopen : s.isOpen = false) : s.zs = false := by
  cases hzs : s.zs with
  | false => rfl
  | true => exact absurd (hinv.streamInChunk hzs) (by simp [hopen])

/-- Settles O17: CHB's one check is that no chunk is open; `commandEffect_chb` is its result, byte lists written out. -/
theorem chbResult : Obligations.ChbResult := by
  refine fun tag len s => ⟨decode_chbWord tag len, fun hflt hopen => ?runs, EngineInv.zs_eq_false,
    fun hflt hopen => ?fault2⟩
  case runs =>
    have hcheck : commandCheck (.chb tag len) s.isOpen s.zs = none := by simp [commandCheck, hopen]
    rw [exec_of_check_none hflt hcheck, commandEffect_chb]
    rfl
  case fault2 =>
    have hcheck : commandCheck (.chb tag len) s.isOpen s.zs = some .chunkAlreadyOpen := by simp [commandCheck, hopen]
    exact exec_of_check_some hflt hcheck

/-- Settles O18: CHE's checks are an open chunk, then no open stream; `commandEffect_che` is its result. -/
theorem cheResult : Obligations.CheResult := by
  refine ⟨decode_cheWord, fun s => ⟨fun c hflt hopen hzs hc => ?runs, fun hflt hopen => ?fault3,
    fun hflt hopen hzs => ?fault7⟩⟩
  case runs =>
    have hcheck : commandCheck .che s.isOpen s.zs = none := by simp [commandCheck, hopen, hzs]
    rw [exec_of_check_none hflt hcheck, commandEffect_che hc]
    rfl
  case fault3 =>
    have hcheck : commandCheck .che s.isOpen s.zs = some .chunkNotOpen := by simp [commandCheck, hopen]
    exact exec_of_check_some hflt hcheck
  case fault7 =>
    have hcheck : commandCheck .che s.isOpen s.zs = some .streamOpenAtChunkEnd := by simp [commandCheck, hopen, hzs]
    exact exec_of_check_some hflt hcheck

end Sys2Proof.Machine
end

section
/-! The words of the stored-block packager (spec/30_encoding.md R43, R45, R47, R48): the bits of a packed format BH word, and
what the words of ops 0x21 and 0x22 decode to. -/

namespace Sys2Proof

/-- A flag widened to the field `x` is read back by the operand extraction of format BH (R48). -/
theorem finalOperand_setWidth (final : BitVec 1) : finalOperand (final.setWidth 32) = final := by
  revert final
  decide

/-- A flag widened to the field `x` leaves the bits 0 that format BH reserves there (R47). -/
theorem finalReserved_setWidth (final : BitVec 1) : finalReserved (final.setWidth 32) = 0 := by
  revert final
  decide

/-- A format BH word has its opcode, its reserved bits 0, and the flag and the length it was packed from as its operands
(R43, R47, R48). -/
theorem formatBH_bits (op : BitVec 8) (final : BitVec 1) (len : Word) :
    (packWord op (final.setWidth 32) len).extractLsb 71 64 = op ∧
    (packWord op (final.setWidth 32) len).extractLsb 63 33 = 0 ∧
    final = (packWord op (final.setWidth 32) len).extractLsb 32 32 ∧
    len = (packWord op (final.setWidth 32) len).extractLsb 31 0 := by
  refine ⟨Laws.EncodedLegal.packWord_op _ _ _, ?reserved, ?final, (yField_packWord _ _ _).symm⟩
  case reserved => rw [← finalReserved_xField, xField_packWord, finalReserved_setWidth]
  case final => rw [← finalOperand_xField, xField_packWord, finalOperand_setWidth]

/-- The format BH word of op 0x21 is `BLKHDR final, len`, whatever the length (R47, R49, R50). -/
theorem decode_blkhdrWord (final : BitVec 1) (len : Word) :
    decode (packWord 0x21 (final.setWidth 32) len) = .ok (.blkhdr final len) :=
  (decode_eq_ok_iff _ _).mpr (formatBH_bits 0x21 final len)

/-- The format N word of op 0x22 is `FILT` (R45, R49). -/
theorem decode_filtWord : decode (packWord 0x22 0 0) = .ok .filt :=
  (decode_eq_ok_iff _ _).mpr (formatN_bits 0x22)

end Sys2Proof
end

section
/-! What the stored-block packager's commands BLKHDR and FILT do (spec/42_stored_block.md R85, R86). -/

namespace Sys2Proof.Machine

/-- The range check of BLKHDR, in numbers (R85). -/
theorem lenFits_iff (len : Word) : lenFits len = true ↔ len.toNat ≤ 0xFFFF := decide_eq_true_iff

/-- The two length fields of a stored block are bitwise complements: every bit differs, and they sum to all-ones (R85). -/
theorem half_complement (l : Half) : l ^^^ ~~~l = 0xFFFF ∧ l.toNat + (~~~l).toNat = 0xFFFF := by
  constructor
  · rw [← BitVec.xor_allOnes, ← BitVec.xor_assoc, BitVec.xor_self, BitVec.zero_xor]
    rfl
  · have hlt := l.isLt
    rw [BitVec.toNat_not]
    omega

/-- BLKHDR's effect from a `C` that holds a value: the framing bytes through the CRC, the Adler sums kept (R85). -/
theorem commandEffect_blkhdr (final : BitVec 1) (len : Word) {s : State} {c : Word} (hc : s.c = some c) :
    commandEffect (.blkhdr final len) s =
      { s with
        out := s.out ++ blockFraming final (blockLen len)
        c := some (crcBytes c (blockFraming final (blockLen len))) } := by
  rw [← readC_of_some hc]
  exact emitCrc_spec _ _ s

/-- Settles O20: BLKHDR's checks are an open chunk, then an open stream, then the length's range; `commandEffect_blkhdr` is
its result, the framing bytes written out. -/
theorem blkhdrResult : Obligations.BlkhdrResult := by
  refine fun final len s => ⟨decode_blkhdrWord final len, fun c hflt hopen hzs hc hlen => ?runs, half_complement _,
    fun hflt hopen => ?fault3, fun hflt hopen hzs => ?fault5, fun hflt hopen hzs hlen => ?fault8⟩
  case runs =>
    have hcheck : commandCheck (.blkhdr final len) s.isOpen s.zs = none := by
      simp [commandCheck, hopen, hzs, (lenFits_iff len).mpr hlen]
    rw [exec_of_check_none hflt hcheck, commandEffect_blkhdr final len hc]
    rfl
  case fault3 =>
    have hcheck : commandCheck (.blkhdr final len) s.isOpen s.zs = some .chunkNotOpen := by simp [commandCheck, hopen]
    exact exec_of_check_some hflt hcheck
  case fault5 =>
    have hcheck : commandCheck (.blkhdr final len) s.isOpen s.zs = some .streamNotOpen := by
      simp [commandCheck, hopen, hzs]
    exact exec_of_check_some hflt hcheck
  case fault8 =>
    have hcheck : commandCheck (.blkhdr final len) s.isOpen s.zs = some .lenOverflow := by
      simp [commandCheck, hopen, hzs, lenFits_iff, hlen]
    exact exec_of_check_some hflt hcheck

/-- FILT is `PUTCA 0` in every state: they have the same checks and the same effect (R86). -/
theorem exec_filt_eq_putca (s : State) : exec .filt s = exec (.putca 0) s := by
  have hcheck : commandCheck .filt s.isOpen s.zs = commandCheck (.putca 0) s.isOpen s.zs := rfl
  have heffect : commandEffect .filt s = commandEffect (.putca 0) s := rfl
  rw [exec_cases, exec_cases, hcheck, heffect]

/-- The Adler step on the byte 00 keeps a first sum in range and adds it to the second (R67, R86). -/
theorem adlerByte_zero {a : Half} (ha : a.toNat ≤ 65520) (b : Half) :
    adlerByte (a, b) 0x00 = (a, BitVec.ofNat 16 ((b.toNat + a.toNat) % 65521)) := by
  have hsum : (a.toNat + (0x00 : Byte).toNat) % 65521 = a.toNat := Nat.mod_eq_of_lt (Nat.lt_succ_of_le ha)
  rw [adlerByte_eq, hsum, BitVec.ofNat_toNat, BitVec.setWidth_eq]

/-- Settles O21: FILT is `PUTCA 0`, so its result and its faults are those of `putcaResult`; the byte 00 makes the two sums
those of `adlerByte_zero`. -/
theorem filtResult : Obligations.FiltResult := by
  refine ⟨decode_filtWord, fun s => ?_⟩
  obtain ⟨-, hruns, hfault3, hfault5⟩ := putcaResult 0 s
  rw [← exec_filt_eq_putca s] at hruns hfault3 hfault5
  refine ⟨fun c a b hflt hopen hzs hc ha hb hrangeA hrangeB => ⟨adlerByte_zero hrangeA b, ?runs⟩, hfault3, hfault5,
    exec_filt_eq_putca s⟩
  case runs => rw [hruns c a b hflt hopen hzs hc ha hb hrangeA hrangeB, adlerByte_eq]

end Sys2Proof.Machine
end

section
/-! The words of the zlib stream's two commands (spec/30_encoding.md R43, R45): what the words of ops 0x20 and 0x23 decode
to. -/

namespace Sys2Proof

/-- The format N word of op 0x20 is `ZHDR` (R45, R49). -/
theorem decode_zhdrWord : decode (packWord 0x20 0 0) = .ok .zhdr :=
  (decode_eq_ok_iff _ _).mpr (formatN_bits 0x20)

/-- The format N word of op 0x23 is `ZTRL` (R45, R49). -/
theorem decode_ztrlWord : decode (packWord 0x23 0 0) = .ok .ztrl :=
  (decode_eq_ok_iff _ _).mpr (formatN_bits 0x23)

end Sys2Proof
end

section
/-! The bytes of the Adler-32 trailer (spec/30_encoding.md R57): `B` is the high half of the word, `A` the low half, and the
four bytes of a word are the bytes of its halves, the high half first. -/

namespace Sys2Proof.Machine

/-- The Adler word is the concatenation of `B` and `A`: the shift leaves the low half free for `A` (R57, R68). -/
theorem adlerWord_eq_append (a b : Half) : adlerWord (a, b) = b ++ a := by
  rw [BitVec.append_def, BitVec.shiftLeftZeroExtend_eq]
  rfl

/-- The big-endian bytes of a word made of two halves (R7). -/
theorem be32_append (high low : Half) :
    be32 (high ++ low) =
      [high.extractLsb 15 8, high.extractLsb 7 0, low.extractLsb 15 8, low.extractLsb 7 0] := by
  have hhigh (k : Nat) (hk : k + 8 ≤ 16) : high.extractLsb' k 8 = (high ++ low).extractLsb' (16 + k) 8 := by
    rw [← extractLsb'_extractLsb'_add _ hk, BitVec.extractLsb'_append_eq_left]
  have hlow (k : Nat) (hk : k + 8 ≤ 16) : low.extractLsb' k 8 = (high ++ low).extractLsb' (0 + k) 8 := by
    rw [← extractLsb'_extractLsb'_add _ hk, BitVec.extractLsb'_append_eq_right]
  simp only [BitVec.extractLsb, hhigh, hlow, be32, Nat.reduceAdd, Nat.reduceSub, Nat.reduceLeDiff]

end Sys2Proof.Machine
end

section
/-! What the zlib stream's commands ZHDR and ZTRL do (spec/43_zlib_stream.md R92, R93). -/

namespace Sys2Proof.Machine

/-- ZHDR's effect from a `C` that holds a value: the two header bytes through the CRC, the Adler sums seeded whatever they
held, `ZS` set (R92). -/
theorem commandEffect_zhdr {s : State} {c : Word} (hc : s.c = some c) :
    commandEffect .zhdr s =
      { s with
        out := s.out ++ zlibHeader
        c := some (crcBytes c zlibHeader)
        a := some adlerSeedA
        b := some adlerSeedB
        zs := true } := by
  rw [commandEffect, zlibHeader, emitCrc_spec, readC_of_some hc]
  rfl

/-- ZTRL's effect from registers that hold values: the Adler word through the CRC, big-endian, `ZS` cleared, the Adler sums
kept (R93). -/
theorem commandEffect_ztrl {s : State} {c : Word} {a b : Half} (hc : s.c = some c) (ha : s.a = some a)
    (hb : s.b = some b) :
    commandEffect .ztrl s =
      { s with
        out := s.out ++ be32 (adlerWord (a, b))
        c := some (crcBytes c (be32 (adlerWord (a, b))))
        zs := false } := by
  rw [commandEffect, readA_of_some ha, readB_of_some hb, emitCrc_be32, readC_of_some hc]
  rfl

/-- Settles O19: ZHDR's checks are an open chunk, then no open stream; `commandEffect_zhdr` is its result, with the header
bytes and the seeds written out. -/
theorem zhdrResult : Obligations.ZhdrResult := by
  refine ⟨decode_zhdrWord, fun s => ⟨fun c hflt hopen hzs hc => ?runs, fun hflt hopen => ?fault3,
    fun hflt hopen hzs => ?fault6⟩⟩
  case runs =>
    have hcheck : commandCheck .zhdr s.isOpen s.zs = none := by simp [commandCheck, hopen, hzs]
    rw [exec_of_check_none hflt hcheck, commandEffect_zhdr hc]
    rfl
  case fault3 =>
    have hcheck : commandCheck .zhdr s.isOpen s.zs = some .chunkNotOpen := by simp [commandCheck, hopen]
    exact exec_of_check_some hflt hcheck
  case fault6 =>
    have hcheck : commandCheck .zhdr s.isOpen s.zs = some .streamAlreadyOpen := by simp [commandCheck, hopen, hzs]
    exact exec_of_check_some hflt hcheck

/-- Settles O22: ZTRL's checks are an open chunk, then an open stream; `commandEffect_ztrl` is its result, and the Adler
word's bytes are those of `B`, then those of `A`. -/
theorem ztrlResult : Obligations.ZtrlResult := by
  refine ⟨decode_ztrlWord, fun s => ⟨fun c a b hflt hopen hzs hc ha hb => ?runs, fun hflt hopen => ?fault3,
    fun hflt hopen hzs => ?fault5⟩⟩
  case runs =>
    have hcheck : commandCheck .ztrl s.isOpen s.zs = none := by simp [commandCheck, hopen, hzs]
    rw [exec_of_check_none hflt hcheck, commandEffect_ztrl hc ha hb, adlerWord_eq_append, be32_append]
  case fault3 =>
    have hcheck : commandCheck .ztrl s.isOpen s.zs = some .chunkNotOpen := by simp [commandCheck, hopen]
    exact exec_of_check_some hflt hcheck
  case fault5 =>
    have hcheck : commandCheck .ztrl s.isOpen s.zs = some .streamNotOpen := by simp [commandCheck, hopen, hzs]
    exact exec_of_check_some hflt hcheck

end Sys2Proof.Machine
end

section
/-! The checks of R116 read off the command word and off the decoded command are the same checks
(spec/60_exceptions.md R114 to R116). -/

namespace Sys2Proof.Machine

/-- An illegal word fails the first check of the table, whatever the flags are (R116, line 2). -/
theorem firstFailingCheck_of_not_legalBits {w : CmdWord} (hillegal : ¬ LegalBits w) (isOpen zs : Bool) :
    firstFailingCheck w isOpen zs = some .illegalCommand := by
  rw [← wordLegal_iff_legalBits, Bool.not_eq_true] at hillegal
  simp only [firstFailingCheck, hillegal, if_true]

/-- The range check of BLKHDR fails on exactly the lengths above `0xFFFF` (R126). -/
theorem lenFits_eq_false_iff (len : Word) : lenFits len = false ↔ 0xFFFF < len.toNat := by
  rw [← Bool.not_eq_true, lenFits_iff, not_le]

/-- On a word that decodes, the table read off the word's bits gives the check of the decoded command (R116, lines 3 to
5): the opcode selects the command's rows. -/
theorem firstFailingCheck_of_decode {w : CmdWord} {i : Instr} (hdecode : decode w = .ok i) (isOpen zs : Bool) :
    firstFailingCheck w isOpen zs = commandCheck i isOpen zs := by
  have hlegal : wordLegal w = true :=
    (wordLegal_iff_legalBits w).mpr ((exists_decode_iff_legalBits w).mp ⟨i, hdecode⟩)
  have hword := (decode_eq_ok_iff w i).mp hdecode
  cases i with
  | put u | putc u | putca u | chb tag len | che | zhdr | filt | ztrl =>
    obtain ⟨hop, -⟩ := hword
    cases isOpen <;> cases zs <;> simp [firstFailingCheck, commandCheck, hlegal, hop]
  | blkhdr final len =>
    obtain ⟨hop, -, -, hlen⟩ := hword
    simp only [firstFailingCheck, commandCheck, hlegal, hop, ← hlen, ← lenFits_eq_false_iff]
    cases isOpen <;> cases zs <;> cases lenFits len <;> simp

/-- Every fault has a code from 1 to 8 (R115). -/
theorem FaultCode.code_range (k : FaultCode) : 1 ≤ k.code ∧ k.code ≤ 8 := by
  cases k <;> decide

end Sys2Proof.Machine
end

section
/-! What a whole command keeps and how many bytes it appends (spec/20_memory.md R36, spec/60_exceptions.md R114): no effect
writes the fault registers, and each appends the bytes of its own count. -/

namespace Sys2Proof.Machine

/-- The CRC path leaves `FLT` as it is. -/
@[simp] theorem emitCrc_flt (bs : List Byte) (s : State) : (emitCrc bs s).flt = s.flt := by
  cases bs with
  | nil => rfl
  | cons u bs => rw [emitCrc_spec]

/-- The CRC path leaves `FCODE` as it is. -/
@[simp] theorem emitCrc_fcode (bs : List Byte) (s : State) : (emitCrc bs s).fcode = s.fcode := by
  cases bs with
  | nil => rfl
  | cons u bs => rw [emitCrc_spec]

/-- A command that passes its checks leaves `FLT` as it is (R15, R116). -/
@[simp] theorem commandEffect_flt (i : Instr) (s : State) : (commandEffect i s).flt = s.flt := by
  cases i <;> simp [commandEffect]

/-- A command that passes its checks leaves `FCODE` as it is (R15, R116). -/
@[simp] theorem commandEffect_fcode (i : Instr) (s : State) : (commandEffect i s).fcode = s.fcode := by
  cases i <;> simp [commandEffect]

/-- A command that passes its checks appends as many bytes as R36 counts for it. -/
theorem commandEffect_out_length (i : Instr) (s : State) :
    (commandEffect i s).out.length = s.out.length + byteCount i := by
  cases i <;> simp [commandEffect, byteCount, be32, le16, blockFraming, zlibHeader]

/-- Every command appends at least one byte when it executes (R36). -/
theorem byteCount_pos (i : Instr) : 0 < byteCount i := by
  cases i <;> simp [byteCount]

end Sys2Proof.Machine
end

section
/-! A step on a command word: what the fault lock, a failing check and a passed check each make of it
(spec/60_exceptions.md R116 to R118). -/

namespace Sys2Proof.Machine

/-- With a word presented, a step runs the decoded command in the state that has accepted the word (R9, R30). -/
theorem step_of_decode_ok {s : State} {w : CmdWord} {rest : List HostInput} {i : Instr}
    (hinput : s.input = .command w :: rest) (hdecode : decode w = .ok i) : step s = exec i (acceptCommand rest s) := by
  simp only [step, hinput, hdecode]

/-- With a word presented that the decoder refuses, a step treats it as illegal in the state that has accepted it
(R50, R119). -/
theorem step_of_decode_error {s : State} {w : CmdWord} {rest : List HostInput} {e : Illegal}
    (hinput : s.input = .command w :: rest) (hdecode : decode w = .error e) :
    step s = illegalWord (acceptCommand rest s) := by
  simp only [step, hinput, hdecode]

/-- The fault lock: with `FLT = 1` a word, legal or not, is accepted and nothing else happens (R116, line 1; R118). -/
theorem step_of_flt {s : State} {w : CmdWord} {rest : List HostInput} (hinput : s.input = .command w :: rest)
    (hflt : s.flt = true) : step s = .next (acceptCommand rest s) := by
  have hlocked : (acceptCommand rest s).flt = true := hflt
  cases hdecode : decode w with
  | ok i => rw [step_of_decode_ok hinput hdecode, exec_locked i hlocked]
  | error e => rw [step_of_decode_error hinput hdecode, illegalWord, unlessLocked_of_flt hlocked]

/-- With `FLT = 0` the first failing check of a word is the one fault recorded, and the word is accepted (R116, R117). -/
theorem step_of_firstFailingCheck_some {s : State} {w : CmdWord} {rest : List HostInput} {k : FaultCode}
    (hinput : s.input = .command w :: rest) (hflt : s.flt = false)
    (hfails : firstFailingCheck w s.isOpen s.zs = some k) : step s = .next (raiseFault k (acceptCommand rest s)) := by
  by_cases hlegal : LegalBits w
  · obtain ⟨i, hdecode⟩ := (exists_decode_iff_legalBits w).mpr hlegal
    rw [firstFailingCheck_of_decode hdecode] at hfails
    rw [step_of_decode_ok hinput hdecode]
    exact exec_of_check_some hflt hfails
  · rw [firstFailingCheck_of_not_legalBits hlegal, Option.some.injEq] at hfails
    rw [← hfails]
    exact step_of_not_legalBits hinput hflt hlegal

/-- With `FLT = 0` and no failing check a word is that of a command, and the step is its whole effect (R116, line 6). -/
theorem step_of_firstFailingCheck_none {s : State} {w : CmdWord} {rest : List HostInput}
    (hinput : s.input = .command w :: rest) (hflt : s.flt = false)
    (hpasses : firstFailingCheck w s.isOpen s.zs = none) :
    ∃ i, decode w = .ok i ∧ step s = .next (commandEffect i (acceptCommand rest s)) := by
  by_cases hlegal : LegalBits w
  · obtain ⟨i, hdecode⟩ := (exists_decode_iff_legalBits w).mpr hlegal
    rw [firstFailingCheck_of_decode hdecode] at hpasses
    rw [step_of_decode_ok hinput hdecode]
    exact ⟨i, hdecode, exec_of_check_none hflt hpasses⟩
  · rw [firstFailingCheck_of_not_legalBits hlegal] at hpasses
    cases hpasses

/-- Settles O28: the lock, a failing check and a passed table are the three cases of a step on a word; an effect leaves
the fault registers alone and appends `byteCount i` bytes, at least one. -/
theorem firstFailingCheckIsReported : Obligations.FirstFailingCheckIsReported := by
  refine fun s w rest hinput => ⟨fun hflt => step_of_flt hinput hflt,
    fun k hflt hfails => step_of_firstFailingCheck_some hinput hflt hfails, fun hflt hpasses => ?executes⟩
  case executes =>
    obtain ⟨i, hdecode, hstep⟩ := step_of_firstFailingCheck_none hinput hflt hpasses
    refine ⟨i, _, hdecode, hstep, ?flt, ?fcode, ?appends⟩
    case flt => rw [commandEffect_flt, acceptCommand_flt, hflt]
    case fcode => rw [commandEffect_fcode, acceptCommand_fcode]
    case appends =>
      rw [commandEffect_out_length, acceptCommand_out]
      exact Nat.lt_add_of_pos_right (byteCount_pos i)

/-- A step on a word that sets `FLT` has recorded the fault of a failing check and nothing else (R117): a step whose checks
all pass leaves `FLT = 0`. -/
theorem fault_of_step_sets_flt {s t : State} {w : CmdWord} {rest : List HostInput}
    (hinput : s.input = .command w :: rest) (hflt : s.flt = false) (hstep : step s = .next t) (hfault : t.flt = true) :
    ∃ k, t = raiseFault k (acceptCommand rest s) := by
  cases hcheck : firstFailingCheck w s.isOpen s.zs with
  | some k =>
    rw [step_of_firstFailingCheck_some hinput hflt hcheck] at hstep
    cases hstep
    exact ⟨k, rfl⟩
  | none =>
    obtain ⟨i, -, heffect⟩ := step_of_firstFailingCheck_none hinput hflt hcheck
    rw [heffect] at hstep
    cases hstep
    rw [commandEffect_flt, acceptCommand_flt, hflt] at hfault
    cases hfault

/-- Only a word can set `FLT` (R114): waiting keeps the state, and the reset pin clears `FLT`. -/
theorem word_of_step_sets_flt {s t : State} (hflt : s.flt = false) (hstep : step s = .next t) (hfault : t.flt = true) :
    ∃ w rest, s.input = .command w :: rest := by
  obtain ⟨-, rfl⟩ | ⟨rest, -, rfl⟩ | ⟨w, rest, -, hinput, -⟩ | ⟨w, rest, -, hinput, -⟩ := step_cases hstep
  · exact absurd hfault (by simp [hflt])
  · exact absurd hfault (by simp)
  · exact ⟨w, rest, hinput⟩
  · exact ⟨w, rest, hinput⟩

/-- Settles O29: only a word can set `FLT`, and then recording the fault of its failing check is all the step did. -/
theorem faultEntryIsPrecise : Obligations.FaultEntryIsPrecise := by
  intro s t hflt hstep hfault
  obtain ⟨w, rest, hinput⟩ := word_of_step_sets_flt hflt hstep hfault
  obtain ⟨k, hnext⟩ := fault_of_step_sets_flt hinput hflt hstep hfault
  obtain ⟨hlow, hhigh⟩ := k.code_range
  exact ⟨w, rest, k, hinput, hlow, hhigh, hnext⟩

/-- The fault lock over a list of words (R118): each step takes one word off the host's list and keeps `FLT = 1`. -/
theorem runSteps_of_flt (ws : List CmdWord) (rest : List HostInput) {s : State} (hflt : s.flt = true)
    (hinput : s.input = ws.map .command ++ rest) :
    runSteps ws.length s = .next { s with input := rest, pos := s.pos + ws.length } := by
  induction ws generalizing s with
  | nil =>
    subst hinput
    rfl
  | cons w ws ih =>
    have hstep : step s = .next (acceptCommand (ws.map .command ++ rest) s) := step_of_flt hinput hflt
    have hlater := ih (s := acceptCommand (ws.map .command ++ rest) s) hflt rfl
    have hpos : s.pos + 1 + ws.length = s.pos + (w :: ws).length := by
      rw [List.length_cons]
      omega
    rw [acceptCommand_pos, hpos] at hlater
    rw [List.length_cons, runSteps, hstep]
    exact hlater

/-- Settles O30: the lock by induction on the words presented; `FLT = 0` is part of a completed run. -/
theorem faultLockDiscards : Obligations.FaultLockDiscards := by
  refine ⟨fun ws s rest hflt hinput => runSteps_of_flt ws rest hflt hinput, fun s hflt hcompleted => ?faulted⟩
  case faulted =>
    obtain ⟨-, hclear, -⟩ := hcompleted
    rw [hflt] at hclear
    cases hclear

end Sys2Proof.Machine
end

section
/-! Encoder and decoder invert each other (spec/30_encoding.md R42 to R52): a word is its three fields packed, and the
fields of a legal word are those its command is encoded from. -/

namespace Sys2Proof

/-- Settles O3: the word of each format decodes to its command, operands included. -/
theorem decodeInvertsEncode : Obligations.DecodeInvertsEncode := by
  intro i
  cases i with
  | put u => exact decode_putWord u
  | putc u => exact decode_putcWord u
  | putca u => exact decode_putcaWord u
  | chb tag len => exact decode_chbWord tag len
  | che => exact decode_cheWord
  | zhdr => exact decode_zhdrWord
  | blkhdr final len => exact decode_blkhdrWord final len
  | filt => exact decode_filtWord
  | ztrl => exact decode_ztrlWord

/-- A value cut in two is its two parts concatenated. -/
theorem extractLsb'_append_extractLsb'_self {m n : Nat} (x : BitVec (m + n)) :
    x.extractLsb' n m ++ x.extractLsb' 0 n = x := by
  rw [BitVec.extractLsb'_append_extractLsb'_eq_extractLsb' (Nat.zero_add n).symm, BitVec.extractLsb'_eq_self]

/-- Zeros above a value only widen it. -/
theorem zero_append_eq_setWidth {m n : Nat} (x : BitVec n) : 0#m ++ x = x.setWidth (m + n) := by
  have hfits : x.toNat < 2 ^ (m + n) := lt_of_lt_of_le x.isLt (Nat.pow_le_pow_right (by decide) (Nat.le_add_left n m))
  apply BitVec.eq_of_toNat_eq
  rw [BitVec.toNat_append, BitVec.toNat_setWidth, Nat.mod_eq_of_lt hfits, BitVec.toNat_ofNat, Nat.zero_mod,
    Nat.zero_shiftLeft, Nat.zero_or]

/-- A word is its three fields packed again (R43). -/
theorem packWord_fields (w : CmdWord) : packWord (opField w) (xField w) (yField w) = w := by
  have hhigh : opField w ++ xField w = w.extractLsb' 32 40 := BitVec.extractLsb'_append_extractLsb'_eq_extractLsb' rfl
  rw [packWord, hhigh]
  exact extractLsb'_append_extractLsb'_self (m := 40) (n := 32) w

/-- A field `y` that format B allows is its byte operand widened (R44, R48). -/
theorem byteOperand_widened {y : Word} (hreserved : byteReserved y = 0) : (byteOperand y).setWidth 32 = y := by
  have hparts : byteReserved y ++ byteOperand y = y := extractLsb'_append_extractLsb'_self (m := 24) (n := 8) y
  rw [hreserved] at hparts
  exact (zero_append_eq_setWidth (m := 24) _).symm.trans hparts

/-- A field `x` that format BH allows is its final flag widened (R47, R48). -/
theorem finalOperand_widened {x : Word} (hreserved : finalReserved x = 0) : (finalOperand x).setWidth 32 = x := by
  have hparts : finalReserved x ++ finalOperand x = x := extractLsb'_append_extractLsb'_self (m := 31) (n := 1) x
  rw [hreserved] at hparts
  exact (zero_append_eq_setWidth (m := 31) _).symm.trans hparts

/-- The encoder gives the fields of a word back when they are an opcode and the operands of its format (R43 to R48). -/
theorem encode_of_isWordOf {w : CmdWord} {i : Instr} (hword : IsWordOf w i) : encode i = w := by
  rw [← packWord_fields w]
  cases i with
  | put u | putc u | putca u =>
    obtain ⟨hop, hreserved, rfl⟩ := hword
    obtain ⟨hx, hy⟩ := (byteReserved_zero_iff w).mpr hreserved
    rw [encode, ← byteOperand_yField, byteOperand_widened hy, hx, opField, ← hop]
    rfl
  | chb tag len =>
    obtain ⟨hop, rfl, rfl⟩ := hword
    rw [encode, ← hop]
    rfl
  | che | zhdr | filt | ztrl =>
    obtain ⟨hop, hreserved⟩ := hword
    obtain ⟨hx, hy⟩ := (xyField_zero_iff w).mpr hreserved
    rw [encode, hx, hy, ← hop]
    rfl
  | blkhdr final len =>
    obtain ⟨hop, hreserved, rfl, rfl⟩ := hword
    rw [← finalReserved_xField] at hreserved
    rw [encode, ← finalOperand_xField, finalOperand_widened hreserved, ← hop]
    rfl

/-- Settles O4: a word that decodes to a command has the command's opcode and operands in its fields. -/
theorem encodeInvertsDecode : Obligations.EncodeInvertsDecode := fun w i hdecode =>
  encode_of_isWordOf ((decode_eq_ok_iff w i).mp hdecode)

/-- Settles O1: thirteen words, each decoded by evaluation. -/
theorem knownWordsDecode : Obligations.KnownWordsDecode := by
  unfold Obligations.KnownWordsDecode
  decide

end Sys2Proof
end

section
/-! The opcode table (spec/opcode_table.json): a row's mask keeps the opcode and the bits its format reserves, and its
pattern asks for the opcode and zeros. -/

namespace Sys2Proof

/-- Two concatenations are equal exactly when their parts are. -/
theorem append_eq_append_iff {m n : Nat} (x x' : BitVec m) (y y' : BitVec n) :
    x ++ y = x' ++ y' ↔ x = x' ∧ y = y' := by
  constructor
  · intro h
    have hx := congrArg (BitVec.extractLsb' n m) h
    have hy := congrArg (BitVec.extractLsb' 0 n) h
    rw [BitVec.extractLsb'_append_eq_left, BitVec.extractLsb'_append_eq_left] at hx
    rw [BitVec.extractLsb'_append_eq_right, BitVec.extractLsb'_append_eq_right] at hy
    exact ⟨hx, hy⟩
  · rintro ⟨rfl, rfl⟩
    rfl

/-- A mask that drops `n` low bits, against an opcode followed by zeros: the top byte is the opcode, and the `m` bits
between are 0. -/
theorem and_mask_eq_pattern_iff {m n : Nat} (w : BitVec (8 + m + n)) (op : BitVec 8) :
    w &&& (BitVec.allOnes 8 ++ BitVec.allOnes m ++ 0#n) = op ++ 0#m ++ 0#n ↔
      w.extractLsb' (n + m) 8 = op ∧ w.extractLsb' n m = 0#m := by
  have htop : (w.extractLsb' n (8 + m)).extractLsb' m 8 = w.extractLsb' (n + m) 8 :=
    extractLsb'_extractLsb'_add w (Nat.add_comm m 8).le
  have hmid : (w.extractLsb' n (8 + m)).extractLsb' 0 m = w.extractLsb' n m :=
    extractLsb'_extractLsb'_add w (by omega)
  have hparts : w = w.extractLsb' (n + m) 8 ++ w.extractLsb' n m ++ w.extractLsb' 0 n := by
    rw [← htop, ← hmid, extractLsb'_append_extractLsb'_self, extractLsb'_append_extractLsb'_self]
  have hmasked : w &&& (BitVec.allOnes 8 ++ BitVec.allOnes m ++ 0#n) =
      w.extractLsb' (n + m) 8 ++ w.extractLsb' n m ++ 0#n := by
    conv_lhs => rw [hparts]
    rw [BitVec.and_append, BitVec.and_append, BitVec.and_allOnes, BitVec.and_allOnes, BitVec.and_zero]
  rw [hmasked, append_eq_append_iff, append_eq_append_iff]
  exact and_iff_left rfl

/-- The mask of format B keeps the opcode and `w[63:8]` (R44). -/
theorem maskB_iff (w : CmdWord) (op : BitVec 8) :
    w &&& 0xFFFFFFFFFFFFFFFF00 = op ++ 0#56 ++ 0#8 ↔ w.extractLsb 71 64 = op ∧ w.extractLsb 63 8 = 0 :=
  and_mask_eq_pattern_iff (m := 56) (n := 8) w op

/-- The mask of format N keeps every bit (R45). -/
theorem maskN_iff (w : CmdWord) (op : BitVec 8) :
    w &&& 0xFFFFFFFFFFFFFFFFFF = op ++ 0#64 ++ 0#0 ↔ w.extractLsb 71 64 = op ∧ w.extractLsb 63 0 = 0 :=
  and_mask_eq_pattern_iff (m := 64) (n := 0) w op

/-- The mask of format CH keeps the opcode alone (R46). -/
theorem maskCH_iff (w : CmdWord) (op : BitVec 8) :
    w &&& 0xFF0000000000000000 = op ++ 0#0 ++ 0#64 ↔ w.extractLsb 71 64 = op :=
  (and_mask_eq_pattern_iff (m := 0) (n := 64) w op).trans (and_iff_left (BitVec.of_length_zero))

/-- The mask of format BH keeps the opcode and `w[63:33]` (R47). -/
theorem maskBH_iff (w : CmdWord) (op : BitVec 8) :
    w &&& 0xFFFFFFFFFE00000000 = op ++ 0#31 ++ 0#33 ↔ w.extractLsb 71 64 = op ∧ w.extractLsb 63 33 = 0 :=
  and_mask_eq_pattern_iff (m := 31) (n := 33) w op

/-- Some command has a property exactly when one of the nine kinds has one that does (R49). -/
theorem exists_instr_iff {P : Instr → Prop} :
    (∃ i, P i) ↔ (∃ u, P (.put u)) ∨ (∃ u, P (.putc u)) ∨ (∃ u, P (.putca u)) ∨ (∃ tag len, P (.chb tag len)) ∨
      P .che ∨ P .zhdr ∨ (∃ final len, P (.blkhdr final len)) ∨ P .filt ∨ P .ztrl := by
  constructor
  · rintro ⟨i, h⟩
    cases i with
    | put u => exact .inl ⟨u, h⟩
    | putc u => exact .inr (.inl ⟨u, h⟩)
    | putca u => exact .inr (.inr (.inl ⟨u, h⟩))
    | chb tag len => exact .inr (.inr (.inr (.inl ⟨tag, len, h⟩)))
    | che => exact .inr (.inr (.inr (.inr (.inl h))))
    | zhdr => exact .inr (.inr (.inr (.inr (.inr (.inl h)))))
    | blkhdr final len => exact .inr (.inr (.inr (.inr (.inr (.inr (.inl ⟨final, len, h⟩))))))
    | filt => exact .inr (.inr (.inr (.inr (.inr (.inr (.inr (.inl h)))))))
    | ztrl => exact .inr (.inr (.inr (.inr (.inr (.inr (.inr (.inr h)))))))
  · rintro (⟨u, h⟩ | ⟨u, h⟩ | ⟨u, h⟩ | ⟨tag, len, h⟩ | h | h | ⟨final, len, h⟩ | h | h) <;> exact ⟨_, h⟩

/-- Settles O5: of the nine kinds of command one has the row's mnemonic, and the bits `IsWordOf` asks of its word are those
the mask of its format keeps; its operands are free. -/
theorem decoderMatchesOpcodeTable : Obligations.DecoderMatchesOpcodeTable := by
  intro w row hrow
  simp only [opcodeTable, List.mem_cons, List.not_mem_nil, or_false] at hrow
  simp only [decode_eq_ok_iff, exists_instr_iff]
  rcases hrow with rfl | rfl | rfl | rfl | rfl | rfl | rfl | rfl | rfl <;>
    simp only [mnemonic, IsWordOf, String.reduceEq, and_true, and_false, exists_false, or_false, false_or, exists_eq,
      exists_and_left]
  · exact maskB_iff w 0x01
  · exact maskB_iff w 0x02
  · exact maskB_iff w 0x03
  · exact maskCH_iff w 0x10
  · exact maskN_iff w 0x11
  · exact maskN_iff w 0x20
  · exact maskBH_iff w 0x21
  · exact maskN_iff w 0x22
  · exact maskN_iff w 0x23

end Sys2Proof
end

section
/-! The CRC-32 step (spec/40_checksum.md R59 to R65; spec/10_state.md R16): bit-serial rounds are linear over exclusive or,
a table step is four of them with the nibble folded in, so a byte is eight of them and the CRC of a list is linear. -/

namespace Sys2Proof.Machine

/-! ### Bit-serial rounds -/

/-- What a round adds for a low bit is linear over exclusive or: the polynomial cancels itself. -/
theorem crcPoly_ite_xor (p q : Bool) :
    (if (p ^^ q) = true then crcPoly else 0) = (if p = true then crcPoly else 0) ^^^ (if q = true then crcPoly else 0) := by
  cases p <;> cases q <;> decide

/-- One round is linear over exclusive or. -/
theorem crcRound_xor (x y : Word) : crcRound (x ^^^ y) = crcRound x ^^^ crcRound y := by
  simp only [crcRound, BitVec.ushiftRight_xor_distrib, BitVec.getLsbD_xor, crcPoly_ite_xor]
  ac_rfl

/-- Any number of rounds is linear over exclusive or (R65). -/
theorem crcRounds_xor (n : Nat) (x y : Word) : crcRounds n (x ^^^ y) = crcRounds n x ^^^ crcRounds n y := by
  induction n generalizing x y with
  | zero => rfl
  | succ n ih => rw [crcRounds, crcRound_xor, ih, crcRounds, crcRounds]

/-- Rounds on a value whose bits consumed are 0 only shift it: the polynomial never enters. -/
theorem crcRounds_of_low_zero (n : Nat) (x : Word) (hlow : ∀ i < n, x.getLsbD i = false) : crcRounds n x = x >>> n := by
  induction n generalizing x with
  | zero => rw [crcRounds, BitVec.ushiftRight_zero]
  | succ n ih =>
    have hround : crcRound x = x >>> 1 := by
      rw [crcRound, hlow 0 (Nat.succ_pos n)]
      exact BitVec.xor_zero
    have hrest : ∀ i < n, (x >>> 1).getLsbD i = false := fun i hi => by
      rw [BitVec.getLsbD_ushiftRight]
      exact hlow (1 + i) (by omega)
    rw [crcRounds, hround, ih _ hrest, ← BitVec.shiftRight_add, Nat.add_comm]

/-- Settles O8: the sixteen entries, each by evaluation. -/
theorem tableEntriesAreFourRounds : Obligations.TableEntriesAreFourRounds := by
  unfold Obligations.TableEntriesAreFourRounds
  decide

/-! ### Table steps -/

/-- The table is linear over exclusive or, as its entries are rounds (R16, R65). -/
theorem crcEntry_xor (m n : Nibble) : crcEntry (m ^^^ n) = crcEntry m ^^^ crcEntry n := by
  rw [tableEntriesAreFourRounds, tableEntriesAreFourRounds m, tableEntriesAreFourRounds n, BitVec.setWidth_xor,
    crcRounds_xor]

/-- The low nibble of an exclusive or is that of the operands' low nibbles. -/
theorem lowNibble_xor {k : Nat} (x y : BitVec k) : lowNibble (x ^^^ y) = lowNibble x ^^^ lowNibble y :=
  BitVec.extractLsb'_xor

/-- The high nibble of an exclusive or is that of the operands' high nibbles. -/
theorem highNibble_xor (u v : Byte) : highNibble (u ^^^ v) = highNibble u ^^^ highNibble v :=
  BitVec.extractLsb'_xor

/-- A table step is linear over exclusive or in the state and the nibble together (R65). -/
theorem crcNib_xor (c d : Word) (m n : Nibble) : crcNib (c ^^^ d) (m ^^^ n) = crcNib c m ^^^ crcNib d n := by
  have hindex : lowNibble (c ^^^ d) ^^^ (m ^^^ n) = (lowNibble c ^^^ m) ^^^ (lowNibble d ^^^ n) := by
    rw [lowNibble_xor]
    ac_rfl
  rw [crcNib, hindex, crcEntry_xor, BitVec.ushiftRight_xor_distrib, crcNib, crcNib]
  ac_rfl

/-- A state with its low nibble cleared passes through four rounds as a shift. -/
theorem crcRounds_four_clearedLow (c : Word) :
    crcRounds 4 (c ^^^ (lowNibble c).setWidth 32) = c >>> 4 := by
  have hshifted : ∀ n : Nibble, (n.setWidth 32 : Word) >>> 4 = 0#32 := by decide
  have hcleared : ∀ i < 4, (c ^^^ (lowNibble c).setWidth 32).getLsbD i = false := fun i hi => by
    have hword : i < 32 := by omega
    simp [lowNibble, hi, hword]
  rw [crcRounds_of_low_zero 4 _ hcleared, BitVec.ushiftRight_xor_distrib, hshifted, BitVec.xor_zero]

/-- A table step with the nibble 0 is four rounds: the low nibble's rounds are its table entry, and the rest of the state is
shifted (R16, R59). -/
theorem crcNib_zero (c : Word) : crcNib c 0 = crcRounds 4 c := by
  have hsplit : c = (c ^^^ (lowNibble c).setWidth 32) ^^^ (lowNibble c).setWidth 32 := by
    rw [BitVec.xor_assoc, BitVec.xor_self, BitVec.xor_zero]
  have hindex : lowNibble c ^^^ 0 = lowNibble c := BitVec.xor_zero
  conv_rhs => rw [hsplit]
  rw [crcRounds_xor, crcRounds_four_clearedLow, ← tableEntriesAreFourRounds, crcNib, hindex]

/-- A byte update is linear over exclusive or in the state and the byte together (R65). -/
theorem crcByte_xor (c d : Word) (u v : Byte) : crcByte (c ^^^ d) (u ^^^ v) = crcByte c u ^^^ crcByte d v := by
  rw [crcByte, lowNibble_xor, highNibble_xor, crcNib_xor, crcNib_xor, crcByte, crcByte]

/-- Settles O11: by induction on the list, each byte by the linearity of its update. -/
theorem crcIsLinear : Obligations.CrcIsLinear := by
  intro c d us
  induction us generalizing c d with
  | nil => rfl
  | cons p us ih =>
    obtain ⟨u, v⟩ := p
    simp only [List.map_cons, crcBytes_cons, crcByte_xor, ih]

/-! ### The two other forms of the byte update -/

/-- A state that is the byte itself is cancelled by it, nibble by nibble. -/
theorem crcByte_widened_self (u : Byte) : crcByte (u.setWidth 32) u = 0 := by
  revert u
  decide

/-- Settles O9: two steps with the nibble 0 are an update with `u ^ u`, so by linearity the byte folded into the state only
adds the update of `u` by itself, which is 0. -/
theorem crcByteFoldsByteOnce : Obligations.CrcByteFoldsByteOnce := by
  intro c u
  have hzero : crcNib (crcNib (c ^^^ u.setWidth 32) 0) 0 = crcByte (c ^^^ u.setWidth 32) (u ^^^ u) := by
    rw [BitVec.xor_self]
    rfl
  rw [hzero, crcByte_xor, crcByte_widened_self]
  exact BitVec.xor_zero.symm

/-- Settles O10: in the form of O9 each table step is four rounds. -/
theorem crcByteIsEightRounds : Obligations.CrcByteIsEightRounds := by
  intro c u
  rw [crcByteFoldsByteOnce, crcNib_zero, crcNib_zero]
  rfl

end Sys2Proof.Machine
end

section
/-! The Adler sums of a whole list (spec/40_checksum.md R68): modulo 65521 the first sum adds up the bytes, and the second
counts each byte once for every byte from it to the end. -/

namespace Sys2Proof.Machine

/-- Each byte times how many bytes there are from it to the end: `n*u_1 + (n-1)*u_2 + ... + u_n` (R68). -/
def weightedSum (us : List Byte) : Nat := (us.zipIdx.map fun p => (us.length - p.2) * p.1.toNat).sum

/-- The first byte has the length as its weight; the others keep theirs. -/
theorem weightedSum_cons (u : Byte) (us : List Byte) :
    weightedSum (u :: us) = (us.length + 1) * u.toNat + weightedSum us := by
  simp [weightedSum, List.zipIdx_succ, Function.comp_def]

/-- One Adler step modulo 65521: both sums take in the first sum and the byte (R67). -/
theorem adlerByte_modEq (a b : Half) (u : Byte) :
    (adlerByte (a, b) u).1.toNat ≡ a.toNat + u.toNat [MOD 65521] ∧
    (adlerByte (a, b) u).2.toNat ≡ b.toNat + (a.toNat + u.toNat) [MOD 65521] := by
  have hfirst : (adlerByte (a, b) u).1.toNat ≡ a.toNat + u.toNat [MOD 65521] := by
    rw [adlerByte, adlerAdd_toNat]
    exact Nat.mod_modEq _ _
  have hsecond : (adlerByte (a, b) u).2.toNat ≡ b.toNat + (adlerByte (a, b) u).1.toNat [MOD 65521] := by
    rw [adlerByte, adlerAdd_toNat]
    exact Nat.mod_modEq _ _
  exact ⟨hfirst, hsecond.trans (hfirst.add_left _)⟩

/-- The Adler sums of a list from any pair, modulo 65521: the first sum enters the second once for each byte. -/
theorem adlerBytes_modEq (us : List Byte) (a b : Half) :
    (adlerBytes (a, b) us).1.toNat ≡ a.toNat + (us.map fun u => u.toNat).sum [MOD 65521] ∧
    (adlerBytes (a, b) us).2.toNat ≡ b.toNat + us.length * a.toNat + weightedSum us [MOD 65521] := by
  induction us generalizing a b with
  | nil =>
    have hempty : b.toNat + ([] : List Byte).length * a.toNat + weightedSum [] = b.toNat := by simp [weightedSum]
    rw [hempty]
    exact ⟨rfl, rfl⟩
  | cons u us ih =>
    obtain ⟨hfirst, hsecond⟩ := adlerByte_modEq a b u
    obtain ⟨ha, hb⟩ := ih (adlerByte (a, b) u).1 (adlerByte (a, b) u).2
    rw [adlerBytes_cons, List.map_cons, List.sum_cons, List.length_cons, weightedSum_cons]
    constructor
    · calc _ ≡ _ [MOD 65521] := ha
        _ ≡ a.toNat + u.toNat + (us.map fun u => u.toNat).sum [MOD 65521] := hfirst.add_right _
        _ = _ := by ring
    · calc _ ≡ _ [MOD 65521] := hb
        _ ≡ b.toNat + (a.toNat + u.toNat) + us.length * (a.toNat + u.toNat) + weightedSum us [MOD 65521] :=
          (hsecond.add (hfirst.mul_left _)).add_right _
        _ = _ := by ring

/-- Sums in range stay in range over a list (R12). -/
theorem adlerBytes_lt (us : List Byte) {ab : Half × Half} (ha : ab.1.toNat < 65521) (hb : ab.2.toNat < 65521) :
    (adlerBytes ab us).1.toNat < 65521 ∧ (adlerBytes ab us).2.toNat < 65521 := by
  induction us generalizing ab with
  | nil => exact ⟨ha, hb⟩
  | cons u us ih =>
    obtain ⟨ha', hb'⟩ := adlerByte_lt ab u
    exact ih ha' hb'

/-- Settles O13: from the seed `(1, 0)` the sums are congruent to R68's, and being in range they are its remainders. -/
theorem adlerClosedForm : Obligations.AdlerClosedForm := by
  intro us
  obtain ⟨ha, hb⟩ := adlerBytes_modEq us 1 0
  obtain ⟨hlta, hltb⟩ := adlerBytes_lt us (ab := (1, 0)) (by decide) (by decide)
  have hseed : (0 : Half).toNat + us.length * (1 : Half).toNat + weightedSum us = us.length + weightedSum us := by simp
  rw [hseed] at hb
  constructor
  · rw [← Nat.mod_eq_of_lt hlta]
    exact ha
  · rw [← Nat.mod_eq_of_lt hltb]
    exact hb

end Sys2Proof.Machine
end

section
/-! The host's numbers (spec/30_encoding.md R52; spec/44_host_sequence.md R100 to R103, R113): which operands the assembler
takes, and how wide a row may be. -/

namespace Sys2Proof.Machine

/-- A number that is at most the field's all-ones is taken, another is rejected (R52). -/
theorem fitField_eq_ite {k : Nat} (n top : Nat) (htop : top + 1 = 2 ^ k) :
    fitField k n = if n ≤ top then some (BitVec.ofNat k n) else none := by
  simp only [fitField, ← htop, Nat.lt_succ_iff]

/-- The numbers a byte operand may be (R52). -/
theorem fitField_byte (n : Nat) : fitField 8 n = if n ≤ 255 then some (BitVec.ofNat 8 n) else none :=
  fitField_eq_ite n 255 rfl

/-- The numbers a 32-bit operand may be (R52). -/
theorem fitField_word (n : Nat) : fitField 32 n = if n ≤ 0xFFFFFFFF then some (BitVec.ofNat 32 n) else none :=
  fitField_eq_ite n 0xFFFFFFFF rfl

/-- The numbers a flag operand may be (R52). -/
theorem fitField_flag (n : Nat) : fitField 1 n = if n ≤ 1 then some (BitVec.ofNat 1 n) else none :=
  fitField_eq_ite n 1 rfl

/-- What follows a check on an operand runs when the check holds. -/
theorem ite_some_bind {α β : Type} {p : Prop} [Decidable p] (x : α) (f : α → Option β) :
    (if p then some x else none).bind f = if p then f x else none := by
  by_cases hp : p <;> simp [hp]

/-- Settles O7: each mnemonic takes exactly the numbers its fields take. -/
theorem assemblerRejectsOutOfRange : Obligations.AssemblerRejectsOutOfRange := by
  intro u f n t
  have hbyte (mk : Byte → Instr) :
      (fitField 8 u).map mk = if u ≤ 255 then some (mk (BitVec.ofNat 8 u)) else none := by
    rw [fitField_byte, Option.map_if]
  refine ⟨hbyte .put, hbyte .putc, hbyte .putca, ?chb, ?blkhdr⟩
  case chb =>
    show ((fitField 32 t).bind fun tag => (fitField 32 n).map (Instr.chb tag)) = _
    rw [fitField_word, fitField_word, ite_some_bind, Option.map_if, ite_and]
  case blkhdr =>
    show ((fitField 1 f).bind fun final => (fitField 32 n).map (Instr.blkhdr final)) = _
    rw [fitField_flag, fitField_word, ite_some_bind, Option.map_if, ite_and]

/-- A byte of a word given as a number is the number shifted down and cut to 8 bits (R7). -/
theorem ofNat_extractByte {k : Nat} (v : Nat) (hk : k + 8 ≤ 32) :
    (BitVec.ofNat 32 v).extractLsb' k 8 = BitVec.ofNat 8 (v / 2 ^ k) := by
  apply BitVec.eq_of_getLsbD_eq
  intro i hi
  have hword : k + i < 32 := by omega
  rw [BitVec.getLsbD_extractLsb', BitVec.getLsbD_ofNat, BitVec.getLsbD_ofNat, Nat.testBit_div_two_pow,
    decide_eq_true hi, decide_eq_true hword, Bool.true_and, Nat.add_comm]

/-- The big-endian bytes of a word given as a number (R7). -/
theorem be32_ofNat (v : Nat) :
    be32 (BitVec.ofNat 32 v) =
      [BitVec.ofNat 8 (v / 2 ^ 24), BitVec.ofNat 8 (v / 2 ^ 16), BitVec.ofNat 8 (v / 2 ^ 8), BitVec.ofNat 8 v] := by
  rw [be32, ofNat_extractByte v (by decide), ofNat_extractByte v (by decide), ofNat_extractByte v (by decide),
    ofNat_extractByte v (by decide), Nat.pow_zero, Nat.div_one]

/-- Settles O46: a pseudo-instruction takes exactly the numbers its fields take, and its bytes are those of `be32`. -/
theorem pseudoInstructionsRejectOutOfRange : Obligations.PseudoInstructionsRejectOutOfRange := by
  refine fun v w h ctype => ⟨?putc32, ?ihdr⟩
  case putc32 =>
    show (fitField 32 v).map pseudoPutc32 = _
    rw [fitField_word, Option.map_if, pseudoPutc32, be32_ofNat]
    rfl
  case ihdr =>
    show ((fitField 32 w).bind fun w => (fitField 32 h).bind fun h => (fitField 8 ctype).map (pseudoIhdr w h)) = _
    rw [fitField_word, fitField_word, fitField_byte, ite_some_bind, ite_some_bind, Option.map_if, ite_and, ite_and,
      pseudoIhdr, pseudoPutc32, pseudoPutc32, be32_ofNat, be32_ofNat]
    rfl

/-- Settles O45: with 3 or 4 channels each bound is linear arithmetic on the width. -/
theorem rowBoundInWidths : Obligations.RowBoundInWidths := by
  intro img
  have hfits : rowFits img = true ↔ pitch img ≤ 0xFFFF := decide_eq_true_iff
  rw [hfits, pitch, channels]
  cases img.hasAlpha with
  | false =>
    simp only [Bool.false_eq_true, if_false]
    omega
  | true =>
    simp only [if_true]
    omega

end Sys2Proof.Machine
end

section
/-! What a command answers and what it changes (spec/60_exceptions.md R116 to R118; spec/20_memory.md R36): the three outcomes
of `exec`, and each field of the state after a command that passed its checks. -/

namespace Sys2Proof.Machine

/-! ### The outcomes of a command -/

/-- Every command has a next state (R9, R118). -/
theorem exec_total (i : Instr) (s : State) : ∃ t, exec i s = .next t := by
  cases hflt : s.flt with
  | true => exact ⟨s, exec_locked i hflt⟩
  | false =>
    cases hcheck : commandCheck i s.isOpen s.zs with
    | some k => exact ⟨_, exec_of_check_some hflt hcheck⟩
    | none => exact ⟨_, exec_of_check_none hflt hcheck⟩

/-- The three ways to a command's next state: discarded by the lock, stopped by a failing check, or run whole (R116). -/
theorem exec_next_cases {i : Instr} {s t : State} (hexec : exec i s = .next t) :
    (s.flt = true ∧ t = s) ∨
    (s.flt = false ∧ ∃ k, commandCheck i s.isOpen s.zs = some k ∧ t = raiseFault k s) ∨
    (s.flt = false ∧ commandCheck i s.isOpen s.zs = none ∧ t = commandEffect i s) := by
  cases hflt : s.flt with
  | true =>
    rw [exec_locked i hflt] at hexec
    cases hexec
    exact .inl ⟨rfl, rfl⟩
  | false =>
    cases hcheck : commandCheck i s.isOpen s.zs with
    | some k =>
      rw [exec_of_check_some hflt hcheck] at hexec
      cases hexec
      exact .inr (.inl ⟨rfl, k, rfl, rfl⟩)
    | none =>
      rw [exec_of_check_none hflt hcheck] at hexec
      cases hexec
      exact .inr (.inr ⟨rfl, rfl, rfl⟩)

/-- A command that ends with `FLT = 0` began with it, passed its checks and ran whole. -/
theorem exec_next_of_no_fault {i : Instr} {s t : State} (hexec : exec i s = .next t) (hflt : t.flt = false) :
    s.flt = false ∧ commandCheck i s.isOpen s.zs = none ∧ t = commandEffect i s := by
  obtain ⟨hlocked, rfl⟩ | ⟨-, k, -, rfl⟩ | hran := exec_next_cases hexec
  · rw [hlocked] at hflt
    cases hflt
  · rw [raiseFault_flt] at hflt
    cases hflt
  · exact hran

/-! ### The fields after a whole command -/

/-- The bytes a command appends when it runs (R70 to R93). -/
def emittedBytes (i : Instr) (s : State) : List Byte :=
  match i with
  | .put u | .putc u | .putca u => [u]
  | .chb tag len => be32 len ++ be32 tag
  | .che => be32 (~~~(readC s))
  | .zhdr => zlibHeader
  | .blkhdr final len => blockFraming final (blockLen len)
  | .filt => [filterByte]
  | .ztrl => be32 (adlerWord (readA s, readB s))

/-- `C` after a command that runs: PUT and CHE keep it, CHB folds its tag into the seed, the others fold what they emit into
the value read. -/
def crcAfter (i : Instr) (s : State) : Option Word :=
  match i with
  | .put _ | .che => s.c
  | .chb tag _ => some (crcBytes crcSeed (be32 tag))
  | .putc _ | .putca _ | .zhdr | .blkhdr _ _ | .filt | .ztrl => some (crcBytes (readC s) (emittedBytes i s))

/-- `(A, B)` after a command that runs: ZHDR seeds them, PUTCA and FILT fold their byte in, the others keep them. -/
def adlerAfter (i : Instr) (s : State) : Option Half × Option Half :=
  match i with
  | .zhdr => (some adlerSeedA, some adlerSeedB)
  | .putca u => (some (adlerByte (readA s, readB s) u).1, some (adlerByte (readA s, readB s) u).2)
  | .filt => (some (adlerByte (readA s, readB s) filterByte).1, some (adlerByte (readA s, readB s) filterByte).2)
  | .put _ | .putc _ | .chb _ _ | .che | .blkhdr _ _ | .ztrl => (s.a, s.b)

/-- `OPEN` after a command that runs (R13). -/
def openAfter (i : Instr) (isOpen : Bool) : Bool :=
  match i with
  | .chb _ _ => true
  | .che => false
  | .put _ | .putc _ | .putca _ | .zhdr | .blkhdr _ _ | .filt | .ztrl => isOpen

/-- `ZS` after a command that runs (R14). -/
def zsAfter (i : Instr) (zs : Bool) : Bool :=
  match i with
  | .zhdr => true
  | .ztrl => false
  | .put _ | .putc _ | .putca _ | .chb _ _ | .che | .blkhdr _ _ | .filt => zs

/-- The whole state after a command that passed its checks, field by field. -/
theorem commandEffect_eq (i : Instr) (s : State) :
    commandEffect i s =
      { s with
        c := crcAfter i s
        a := (adlerAfter i s).1
        b := (adlerAfter i s).2
        isOpen := openAfter i s.isOpen
        zs := zsAfter i s.zs
        out := s.out ++ emittedBytes i s } := by
  cases i with
  | put u => rfl
  | putc u => exact emitCrc_spec u [] s
  | putca u => exact emitCrcAdler_spec u [] s
  | chb tag len => exact commandEffect_chb tag len s
  | che => rfl
  | zhdr => rw [commandEffect, zlibHeader, emitCrc_spec]; rfl
  | blkhdr final len => exact emitCrc_spec _ _ s
  | filt => exact emitCrcAdler_spec filterByte [] s
  | ztrl => rw [commandEffect, emitCrc_be32]; rfl

@[simp] theorem commandEffect_c (i : Instr) (s : State) : (commandEffect i s).c = crcAfter i s := by
  rw [commandEffect_eq]
@[simp] theorem commandEffect_a (i : Instr) (s : State) : (commandEffect i s).a = (adlerAfter i s).1 := by
  rw [commandEffect_eq]
@[simp] theorem commandEffect_b (i : Instr) (s : State) : (commandEffect i s).b = (adlerAfter i s).2 := by
  rw [commandEffect_eq]
@[simp] theorem commandEffect_isOpen (i : Instr) (s : State) : (commandEffect i s).isOpen = openAfter i s.isOpen := by
  rw [commandEffect_eq]
@[simp] theorem commandEffect_zs (i : Instr) (s : State) : (commandEffect i s).zs = zsAfter i s.zs := by
  rw [commandEffect_eq]
@[simp] theorem commandEffect_out (i : Instr) (s : State) : (commandEffect i s).out = s.out ++ emittedBytes i s := by
  rw [commandEffect_eq]
@[simp] theorem commandEffect_input (i : Instr) (s : State) : (commandEffect i s).input = s.input := by
  rw [commandEffect_eq]
@[simp] theorem commandEffect_pos (i : Instr) (s : State) : (commandEffect i s).pos = s.pos := by
  rw [commandEffect_eq]

/-- A command that runs emits the bytes R36 counts for it. -/
theorem emittedBytes_length (i : Instr) (s : State) : (emittedBytes i s).length = byteCount i := by
  cases i <;> rfl

/-- No command emits more than 8 bytes (R36). -/
theorem byteCount_le (i : Instr) : byteCount i ≤ 8 := by
  cases i <;> simp [byteCount]

/-- The bytes of a command other than CHE and ZTRL are its operands' and constants: no register enters them (R74). -/
theorem emittedBytes_ignores_registers {i : Instr} (hche : i ≠ .che) (hztrl : i ≠ .ztrl) (s s' : State) :
    emittedBytes i s = emittedBytes i s' := by
  cases i with
  | che => exact absurd rfl hche
  | ztrl => exact absurd rfl hztrl
  | put | putc | putca | chb | zhdr | blkhdr | filt => rfl

/-! ### Frames -/

/-- No command touches the host's list or the index, whatever its outcome. -/
theorem exec_next_frame {i : Instr} {s t : State} (hexec : exec i s = .next t) : t.input = s.input ∧ t.pos = s.pos := by
  obtain ⟨-, rfl⟩ | ⟨-, k, -, rfl⟩ | ⟨-, -, rfl⟩ := exec_next_cases hexec
  · exact ⟨rfl, rfl⟩
  · exact ⟨rfl, rfl⟩
  · exact ⟨commandEffect_input i s, commandEffect_pos i s⟩

/-- Every command keeps the bytes already in the output and appends at most its own count (R31, R36). -/
theorem exec_next_appends {i : Instr} {s t : State} (hexec : exec i s = .next t) :
    ∃ bs, t.out = s.out ++ bs ∧ bs.length ≤ byteCount i := by
  obtain ⟨-, rfl⟩ | ⟨-, k, -, rfl⟩ | ⟨-, -, rfl⟩ := exec_next_cases hexec
  · exact ⟨[], (List.append_nil _).symm, Nat.zero_le _⟩
  · exact ⟨[], (List.append_nil _).symm, Nat.zero_le _⟩
  · exact ⟨emittedBytes i s, commandEffect_out i s, (emittedBytes_length i s).le⟩

/-- Settles O33: the lock and a fault change nothing but `FLT` and `FCODE`; a command that runs changes the fields
`commandEffect_eq` lists, each for the commands named there. -/
theorem commandFrame : Obligations.CommandFrame := by
  intro i s t hexec
  obtain ⟨hinput, hpos⟩ := exec_next_frame hexec
  obtain ⟨bs, hout, -⟩ := exec_next_appends hexec
  refine ⟨hinput, hpos, ?c, ?ab, ?isOpen, ?zs, ⟨bs, hout⟩, ?fault⟩
  case fault =>
    obtain ⟨-, rfl⟩ | ⟨hflt, k, -, rfl⟩ | ⟨-, -, rfl⟩ := exec_next_cases hexec
    · exact .inl ⟨rfl, rfl⟩
    · exact .inr ⟨hflt, k, rfl⟩
    · exact .inl ⟨commandEffect_flt i s, commandEffect_fcode i s⟩
  case c | ab | isOpen | zs =>
    obtain ⟨-, rfl⟩ | ⟨-, k, -, rfl⟩ | ⟨-, -, rfl⟩ := exec_next_cases hexec
    · cases i <;> simp
    · cases i <;> simp
    · cases i <;> simp [crcAfter, adlerAfter, openAfter, zsAfter]

/-- Settles O34: a discarded or faulting command appends nothing and ends with `FLT = 1`; one that runs keeps `FLT = 0`. -/
theorem bytesPerCommand : Obligations.BytesPerCommand := by
  intro i s t hexec
  obtain ⟨hflt, rfl⟩ | ⟨-, k, -, rfl⟩ | ⟨hflt, -, rfl⟩ := exec_next_cases hexec
  · simp [hflt]
  · simp
  · simp [hflt, emittedBytes_length]

/-- Settles O36: the flags decide whether the command runs, and the bytes it then emits are the same. -/
theorem emittedBytesIgnoreRegisters : Obligations.EmittedBytesIgnoreRegisters := by
  intro i s s' t t' hche hztrl hopen hzs hflt hexec hexec'
  obtain ⟨hlocked, rfl⟩ | ⟨hclear, k, hcheck, rfl⟩ | ⟨hclear, hcheck, rfl⟩ := exec_next_cases hexec
  · rw [exec_locked i (hflt ▸ hlocked)] at hexec'
    cases hexec'
    exact ⟨[], by simp⟩
  · rw [hflt] at hclear
    rw [hopen, hzs] at hcheck
    rw [exec_of_check_some hclear hcheck] at hexec'
    cases hexec'
    exact ⟨[], by simp⟩
  · rw [hflt] at hclear
    rw [hopen, hzs] at hcheck
    rw [exec_of_check_none hclear hcheck] at hexec'
    cases hexec'
    refine ⟨emittedBytes i s, commandEffect_out i s, ?_⟩
    rw [emittedBytes_ignores_registers hche hztrl s s', commandEffect_out]

end Sys2Proof.Machine
end

section
/-! One step of the engine (spec/10_state.md R19; spec/20_memory.md R30, R31; spec/60_exceptions.md R114, R127;
spec/70_reset_and_hazards.md R136): what it takes from the host, what it appends, and which flags it leaves. -/

namespace Sys2Proof.Machine

/-- With nothing presented the engine waits (R30). -/
theorem step_of_idle {s : State} (hinput : s.input = []) : step s = .next s := by
  simp only [step, hinput]

/-- A reset is taken off the host's list and carried out (R135, R136). -/
theorem step_of_reset {s : State} {rest : List HostInput} (hinput : s.input = .reset :: rest) :
    step s = .next (applyReset (takeInput rest s)) := by
  simp only [step, hinput]

/-- What a step on a word can do: discard it under the lock, record the fault of a failing check, or run its command. -/
theorem step_command_cases {s t : State} {w : CmdWord} {rest : List HostInput} (hinput : s.input = .command w :: rest)
    (hstep : step s = .next t) :
    (s.flt = true ∧ t = acceptCommand rest s) ∨
    (s.flt = false ∧ ∃ k, firstFailingCheck w s.isOpen s.zs = some k ∧ t = raiseFault k (acceptCommand rest s)) ∨
    (s.flt = false ∧ firstFailingCheck w s.isOpen s.zs = none ∧
      ∃ i, decode w = .ok i ∧ t = commandEffect i (acceptCommand rest s)) := by
  cases hflt : s.flt with
  | true =>
    rw [step_of_flt hinput hflt] at hstep
    cases hstep
    exact .inl ⟨rfl, rfl⟩
  | false =>
    cases hcheck : firstFailingCheck w s.isOpen s.zs with
    | some k =>
      rw [step_of_firstFailingCheck_some hinput hflt hcheck] at hstep
      cases hstep
      exact .inr (.inl ⟨rfl, k, rfl, rfl⟩)
    | none =>
      obtain ⟨i, hdecode, heffect⟩ := step_of_firstFailingCheck_none hinput hflt hcheck
      rw [heffect] at hstep
      cases hstep
      exact .inr (.inr ⟨rfl, rfl, i, hdecode, rfl⟩)

/-- Settles O23: the accepted state is the one with the word off the list and the index advanced. -/
theorem stepRunsDecodedCommand : Obligations.StepRunsDecodedCommand := fun _ _ _ _ hinput hdecode =>
  step_of_decode_ok hinput hdecode

/-- Settles O24: waiting, a reset, a command and an illegal word each have a next state. -/
theorem everyStepCompletes : Obligations.EveryStepCompletes := by
  intro s
  match hinput : s.input with
  | [] => exact ⟨s, step_of_idle hinput⟩
  | .reset :: rest => exact ⟨_, step_of_reset hinput⟩
  | .command w :: rest =>
    cases hdecode : decode w with
    | ok i =>
      rw [step_of_decode_ok hinput hdecode]
      exact exec_total i _
    | error e =>
      rw [step_of_decode_error hinput hdecode]
      obtain ⟨-, hnext⟩ | ⟨-, hnext⟩ := illegalWord_eq (acceptCommand rest s)
      · exact ⟨_, hnext⟩
      · exact ⟨_, hnext⟩

/-- Settles O25: the reset of the state that has taken the pin off the list, field by field. -/
theorem resetPinResult : Obligations.ResetPinResult :=
  ⟨fun _ _ hinput => step_of_reset hinput, rfl, rfl, rfl, rfl, rfl, rfl, rfl⟩

/-- Settles O26: accepting the word takes it off and advances the index, and none of its three outcomes touches either. -/
theorem stepTakesOneInput : Obligations.StepTakesOneInput := by
  intro s t hstep
  match hinput : s.input with
  | [] =>
    rw [step_of_idle hinput] at hstep
    cases hstep
    rfl
  | .reset :: rest =>
    rw [step_of_reset hinput] at hstep
    cases hstep
    exact ⟨rfl, rfl⟩
  | .command w :: rest =>
    obtain ⟨-, rfl⟩ | ⟨-, k, -, rfl⟩ | ⟨-, -, i, -, rfl⟩ := step_command_cases hinput hstep
    · exact ⟨rfl, rfl⟩
    · exact ⟨rfl, rfl⟩
    · exact ⟨commandEffect_input i _, commandEffect_pos i _⟩

/-- Settles O31: the first failing check is a function of the word, `OPEN` and `ZS`, and so are the flags after a command
that runs. -/
theorem faultsIgnoreRegisters : Obligations.FaultsIgnoreRegisters := by
  intro s s' t t' w rest rest' hinput hinput' hopen hzs hflt hfcode hstep hstep'
  obtain ⟨hlocked, rfl⟩ | ⟨hclear, k, hcheck, rfl⟩ | ⟨hclear, hcheck, i, hdecode, rfl⟩ :=
    step_command_cases hinput hstep
  · rw [step_of_flt hinput' (hflt ▸ hlocked)] at hstep'
    cases hstep'
    exact ⟨hflt, hfcode, hopen, hzs⟩
  · rw [hopen, hzs] at hcheck
    rw [step_of_firstFailingCheck_some hinput' (hflt ▸ hclear) hcheck] at hstep'
    cases hstep'
    exact ⟨rfl, rfl, hopen, hzs⟩
  · rw [hopen, hzs] at hcheck
    obtain ⟨i', hdecode', heffect⟩ := step_of_firstFailingCheck_none hinput' (hflt ▸ hclear) hcheck
    obtain rfl : i = i' := Except.ok.inj (hdecode.symm.trans hdecode')
    rw [heffect] at hstep'
    cases hstep'
    simp [hopen, hzs, hflt, hfcode]

/-- Settles O32: waiting changes nothing, and under the lock a word is discarded; what is left is a reset. -/
theorem onlyResetClearsFault : Obligations.OnlyResetClearsFault := by
  intro s t hstep hlocked hclear
  match hinput : s.input with
  | [] =>
    rw [step_of_idle hinput] at hstep
    cases hstep
    rw [hlocked] at hclear
    cases hclear
  | .reset :: rest => exact ⟨rest, rfl⟩
  | .command w :: rest =>
    rw [step_of_flt hinput hlocked] at hstep
    cases hstep
    rw [acceptCommand_flt, hlocked] at hclear
    cases hclear

/-- Settles O35: a word appends at most its command's count of bytes; waiting and a reset append none. -/
theorem outputIsAppendOnly : Obligations.OutputIsAppendOnly := by
  refine ⟨rfl, fun s t hstep => ?_⟩
  match hinput : s.input with
  | [] =>
    rw [step_of_idle hinput] at hstep
    cases hstep
    exact ⟨[], (List.append_nil _).symm, by decide, fun _ _ => rfl⟩
  | .reset :: rest =>
    rw [step_of_reset hinput] at hstep
    cases hstep
    exact ⟨[], (List.append_nil _).symm, by decide, fun _ _ => rfl⟩
  | .command w :: rest =>
    obtain ⟨-, rfl⟩ | ⟨-, k, -, rfl⟩ | ⟨-, -, i, -, rfl⟩ := step_command_cases hinput hstep
    · exact ⟨[], (List.append_nil _).symm, by decide, nofun⟩
    · exact ⟨[], (List.append_nil _).symm, by decide, nofun⟩
    · exact ⟨_, commandEffect_out i _, (emittedBytes_length i _).trans_le (byteCount_le i), nofun⟩

end Sys2Proof.Machine
end

section
/-! The invariants of the engine (spec/10_state.md R12, R15, R23): a command that passed its checks keeps them, and so does
every other thing a step can do. -/

namespace Sys2Proof.Machine

/-- After a command that runs, an open chunk has a value in `C`: what opens or stays in a chunk writes `C`, PUT keeps both,
and CHE closes the chunk (R23 (i)). -/
theorem EngineInv.crcAfter_isSome {s : State} (hinv : EngineInv s) {i : Instr} (hopen : openAfter i s.isOpen = true) :
    (crcAfter i s).isSome = true := by
  cases i with
  | put u => exact hinv.openHasC hopen
  | che => cases hopen
  | putc | putca | chb | zhdr | blkhdr | filt | ztrl => rfl

/-- After a command that runs, an open stream has values in `A` and `B`: what writes them gives values, and a stream is
opened by ZHDR alone (R23 (ii)). -/
theorem EngineInv.adlerAfter_isSome {s : State} (hinv : EngineInv s) {i : Instr} (hzs : zsAfter i s.zs = true) :
    (adlerAfter i s).1.isSome = true ∧ (adlerAfter i s).2.isSome = true := by
  cases i with
  | zhdr | putca | filt => exact ⟨rfl, rfl⟩
  | ztrl => cases hzs
  | put | putc | chb | che | blkhdr => exact ⟨hinv.streamHasA hzs, hinv.streamHasB hzs⟩

/-- A register that has just been given a value is in range when the value is (R12). -/
theorem adlerInRange_some {v : Half} (h : v.toNat < adlerModulus) : adlerInRange (some v) := by
  intro w hw
  cases hw
  exact h

/-- After a command that runs the Adler sums are in range: a step reduces them, and the seeds are `1` and `0` (R12). -/
theorem EngineInv.adlerAfter_inRange {s : State} (hinv : EngineInv s) (i : Instr) :
    adlerInRange (adlerAfter i s).1 ∧ adlerInRange (adlerAfter i s).2 := by
  have hbyte (u : Byte) := adlerByte_lt (readA s, readB s) u
  cases i with
  | zhdr => exact ⟨adlerInRange_some (by decide), adlerInRange_some (by decide)⟩
  | putca u => exact ⟨adlerInRange_some (hbyte u).1, adlerInRange_some (hbyte u).2⟩
  | filt => exact ⟨adlerInRange_some (hbyte filterByte).1, adlerInRange_some (hbyte filterByte).2⟩
  | put | putc | chb | che | blkhdr | ztrl => exact ⟨hinv.rangeA, hinv.rangeB⟩

/-- After a command that runs an open stream is in an open chunk: ZHDR's check asks for the chunk, and CHE's check for no
stream (R23 (iii)). -/
theorem EngineInv.openAfter_of_zsAfter {s : State} (hinv : EngineInv s) {i : Instr}
    (hcheck : commandCheck i s.isOpen s.zs = none) (hzs : zsAfter i s.zs = true) : openAfter i s.isOpen = true := by
  cases i with
  | chb => rfl
  | che =>
    rw [zsAfter] at hzs
    cases hopen : s.isOpen <;> simp [commandCheck, hopen, hzs] at hcheck
  | zhdr =>
    cases hopen : s.isOpen with
    | true => rfl
    | false => simp [commandCheck, hopen] at hcheck
  | ztrl => cases hzs
  | put | putc | putca | blkhdr | filt => exact hinv.streamInChunk hzs

/-- A command that passed its checks keeps the invariants. -/
theorem EngineInv.commandEffect {s : State} (hinv : EngineInv s) {i : Instr}
    (hcheck : commandCheck i s.isOpen s.zs = none) : EngineInv (commandEffect i s) := by
  rw [commandEffect_eq]
  obtain ⟨hrangeA, hrangeB⟩ := hinv.adlerAfter_inRange i
  exact
    { openHasC := hinv.crcAfter_isSome
      streamHasA := fun hzs => (hinv.adlerAfter_isSome hzs).1
      streamHasB := fun hzs => (hinv.adlerAfter_isSome hzs).2
      rangeA := hrangeA
      rangeB := hrangeB
      streamInChunk := hinv.openAfter_of_zsAfter hcheck
      noFaultNoCode := hinv.noFaultNoCode
      faultHasCode := hinv.faultHasCode }

/-- Recording a fault keeps the invariants: its code is from 1 to 8 (R23 (iv)). -/
theorem EngineInv.raiseFault {s : State} (hinv : EngineInv s) (k : FaultCode) : EngineInv (raiseFault k s) :=
  { hinv with
    noFaultNoCode := nofun
    faultHasCode := fun _ => k.code_range }

/-- The invariants say nothing of the host's list and the index. -/
theorem EngineInv.acceptCommand {s : State} (hinv : EngineInv s) (rest : List HostInput) :
    EngineInv (acceptCommand rest s) :=
  { hinv with }

/-- The reset pin establishes the invariants, whatever the state was (R23, R136). -/
theorem engineInv_applyReset (s : State) : EngineInv (applyReset s) :=
  { openHasC := nofun
    streamHasA := nofun
    streamHasB := nofun
    rangeA := nofun
    rangeB := nofun
    streamInChunk := nofun
    noFaultNoCode := fun _ => rfl
    faultHasCode := nofun }

/-- Settles O38: the state after reset is one the reset pin leaves as it is. -/
theorem resetHasInvariants : Obligations.ResetHasInvariants := engineInv_applyReset State.reset

/-- Settles O37: each thing a step can do keeps the invariants or establishes them. -/
theorem stepKeepsInvariants : Obligations.StepKeepsInvariants := by
  intro s t hinv hstep
  match hinput : s.input with
  | [] =>
    rw [step_of_idle hinput] at hstep
    cases hstep
    exact hinv
  | .reset :: rest =>
    rw [step_of_reset hinput] at hstep
    cases hstep
    exact engineInv_applyReset _
  | .command w :: rest =>
    obtain ⟨-, rfl⟩ | ⟨-, k, -, rfl⟩ | ⟨-, hcheck, i, hdecode, rfl⟩ := step_command_cases hinput hstep
    · exact hinv.acceptCommand rest
    · exact (hinv.acceptCommand rest).raiseFault k
    · rw [firstFailingCheck_of_decode hdecode] at hcheck
      exact (hinv.acceptCommand rest).commandEffect hcheck

end Sys2Proof.Machine
end

section
/-! Which register values a command sees (spec/10_state.md R23 (v), R26): a passed check means that the chunk is open where
`C` is read and that the stream is open where `A` and `B` are read, so two states that share those values get the same. -/

namespace Sys2Proof.Machine

/-- The commands that read `C` (R71 to R93). -/
def readsCrc (i : Instr) : Bool :=
  match i with
  | .put _ | .chb _ _ => false
  | .putc _ | .putca _ | .che | .zhdr | .blkhdr _ _ | .filt | .ztrl => true

/-- The commands that read `A` and `B` (R72, R86, R93). -/
def readsAdler (i : Instr) : Bool :=
  match i with
  | .putca _ | .filt | .ztrl => true
  | .put _ | .putc _ | .chb _ _ | .che | .zhdr | .blkhdr _ _ => false

/-- A command that reads `C` passes its checks in an open chunk alone. -/
theorem isOpen_of_readsCrc {i : Instr} {isOpen zs : Bool} (hcheck : commandCheck i isOpen zs = none)
    (hreads : readsCrc i = true) : isOpen = true := by
  cases isOpen with
  | true => rfl
  | false => cases i <;> simp [commandCheck, readsCrc] at hcheck hreads

/-- A command that reads `A` and `B` passes its checks in an open stream alone. -/
theorem zs_of_readsAdler {i : Instr} {isOpen zs : Bool} (hcheck : commandCheck i isOpen zs = none)
    (hreads : readsAdler i = true) : zs = true := by
  cases zs with
  | true => rfl
  | false => cases isOpen <;> cases i <;> simp [commandCheck, readsAdler] at hcheck hreads

/-- The commands that leave `C` as it is when they run (R26, R70, R79). -/
def keepsCrc (i : Instr) : Bool :=
  match i with
  | .put _ | .che => true
  | .putc _ | .putca _ | .chb _ _ | .zhdr | .blkhdr _ _ | .filt | .ztrl => false

/-- The commands that leave `A` and `B` as they are when they run (R12, R26). -/
def keepsAdler (i : Instr) : Bool :=
  match i with
  | .zhdr | .putca _ | .filt => false
  | .put _ | .putc _ | .chb _ _ | .che | .blkhdr _ _ | .ztrl => true

/-- A `C` that is kept and can be seen afterwards could be seen before: no such command opens a chunk. -/
theorem isOpen_of_keepsCrc {i : Instr} {isOpen : Bool} (hkeeps : keepsCrc i = true)
    (hopen : openAfter i isOpen = true) : isOpen = true := by
  cases i with
  | put => exact hopen
  | che => cases hopen
  | putc | putca | chb | zhdr | blkhdr | filt | ztrl => cases hkeeps

/-- Sums that are kept and can be seen afterwards could be seen before: no such command opens a stream. -/
theorem zs_of_keepsAdler {i : Instr} {zs : Bool} (hkeeps : keepsAdler i = true) (hzs : zsAfter i zs = true) :
    zs = true := by
  cases i with
  | put | putc | chb | che | blkhdr => exact hzs
  | ztrl => cases hzs
  | zhdr | putca | filt => cases hkeeps

section
variable {i : Instr} {s s' : State} (hc : readsCrc i = true → readC s = readC s')
  (hab : readsAdler i = true → readA s = readA s' ∧ readB s = readB s')
include hab

/-- The Adler sums after a command are the same where those it reads or keeps are. -/
theorem adlerAfter_congr (hkept : keepsAdler i = true → s.a = s'.a ∧ s.b = s'.b) :
    adlerAfter i s = adlerAfter i s' := by
  cases i with
  | zhdr => rfl
  | putca | filt =>
    obtain ⟨ha, hb⟩ := hab rfl
    rw [adlerAfter, ha, hb, adlerAfter]
  | put | putc | chb | che | blkhdr | ztrl =>
    obtain ⟨ha, hb⟩ := hkept rfl
    rw [adlerAfter, ha, hb, adlerAfter]

include hc

/-- The bytes a command emits are the same where the registers it reads are. -/
theorem emittedBytes_congr : emittedBytes i s = emittedBytes i s' := by
  cases i with
  | che => rw [emittedBytes, hc rfl, emittedBytes]
  | ztrl =>
    obtain ⟨ha, hb⟩ := hab rfl
    rw [emittedBytes, ha, hb, emittedBytes]
  | put | putc | putca | chb | zhdr | blkhdr | filt => rfl

/-- `C` after a command is the same where the registers the command reads are, and `C` if it keeps it. -/
theorem crcAfter_congr (hkept : keepsCrc i = true → s.c = s'.c) : crcAfter i s = crcAfter i s' := by
  have hbytes := emittedBytes_congr hc hab
  cases i with
  | put | che => exact hkept rfl
  | chb => rfl
  | putc | putca | zhdr | blkhdr | filt | ztrl => rw [crcAfter, hc rfl, hbytes, crcAfter]

end

/-! ### No read of a missing value -/

/-- A command that passed its checks from a state with the invariants gives the same at any index: the registers it reads
hold values, so no free value enters (R23 (v)). -/
theorem EngineInv.commandEffect_pos_irrelevant {s : State} (hinv : EngineInv s) {i : Instr} (n : Nat)
    (hcheck : commandCheck i s.isOpen s.zs = none) :
    Machine.commandEffect i { s with pos := n } = { Machine.commandEffect i s with pos := n } := by
  have hc : readsCrc i = true → readC { s with pos := n } = readC s := fun hreads => by
    obtain ⟨c, hc⟩ := Option.isSome_iff_exists.mp (hinv.openHasC (isOpen_of_readsCrc hcheck hreads))
    rw [readC_of_some hc, readC_of_some (s := { s with pos := n }) hc]
  have hab : readsAdler i = true → readA { s with pos := n } = readA s ∧ readB { s with pos := n } = readB s :=
    fun hreads => by
      have hzs := zs_of_readsAdler hcheck hreads
      obtain ⟨a, ha⟩ := Option.isSome_iff_exists.mp (hinv.streamHasA hzs)
      obtain ⟨b, hb⟩ := Option.isSome_iff_exists.mp (hinv.streamHasB hzs)
      rw [readA_of_some ha, readB_of_some hb, readA_of_some (s := { s with pos := n }) ha,
        readB_of_some (s := { s with pos := n }) hb]
      exact ⟨rfl, rfl⟩
  rw [commandEffect_eq, commandEffect_eq, crcAfter_congr hc hab fun _ => rfl,
    adlerAfter_congr hab fun _ => ⟨rfl, rfl⟩, emittedBytes_congr hc hab]

/-- Settles O39: the lock and a fault do not look at the index, and a command that runs does not by
`commandEffect_pos_irrelevant`. -/
theorem noReadOfMissingValue : Obligations.NoReadOfMissingValue := by
  intro i s t n hinv hexec
  obtain ⟨hlocked, rfl⟩ | ⟨hflt, k, hcheck, rfl⟩ | ⟨hflt, hcheck, rfl⟩ := exec_next_cases hexec
  · exact exec_locked i (s := { t with pos := n }) hlocked
  · exact exec_of_check_some (s := { s with pos := n }) hflt hcheck
  · rw [exec_of_check_none (s := { s with pos := n }) hflt hcheck, hinv.commandEffect_pos_irrelevant n hcheck]

/-! ### Stale values -/

/-- Taking a word off the same lists keeps two states apart in stale values at most. -/
theorem SameObservable.acceptCommand {s s' : State} (hsame : SameObservable s s') (rest : List HostInput) :
    SameObservable (acceptCommand rest s) (acceptCommand rest s') :=
  { hsame with
    input := rfl
    pos := congrArg (· + 1) hsame.pos }

/-- The same fault keeps two states apart in stale values at most. -/
theorem SameObservable.raiseFault {s s' : State} (hsame : SameObservable s s') (k : FaultCode) :
    SameObservable (raiseFault k s) (raiseFault k s') :=
  { hsame with
    flt := rfl
    fcode := rfl }

/-- A reset leaves no stale value at all. -/
theorem SameObservable.applyReset {s s' : State} (hsame : SameObservable s s') (rest : List HostInput) :
    SameObservable (applyReset (takeInput rest s)) (applyReset (takeInput rest s')) where
  isOpen := rfl
  zs := rfl
  flt := rfl
  fcode := rfl
  out := hsame.out
  input := rfl
  pos := hsame.pos
  c := nofun
  a := nofun
  b := nofun

/-- A command that passed its checks reads no stale value, and one that it keeps stays stale. -/
theorem SameObservable.commandEffect {s s' : State} (hsame : SameObservable s s') {i : Instr}
    (hcheck : commandCheck i s.isOpen s.zs = none) : SameObservable (commandEffect i s) (commandEffect i s') := by
  have hc : readsCrc i = true → readC s = readC s' := fun hreads => by
    rw [readC, hsame.c (isOpen_of_readsCrc hcheck hreads), hsame.pos, readC]
  have hab : readsAdler i = true → readA s = readA s' ∧ readB s = readB s' := fun hreads => by
    have hzs := zs_of_readsAdler hcheck hreads
    rw [readA, readB, hsame.a hzs, hsame.b hzs, hsame.pos, readA, readB]
    exact ⟨rfl, rfl⟩
  have hadler (hzs : zsAfter i s.zs = true) : adlerAfter i s = adlerAfter i s' :=
    adlerAfter_congr hab fun hkeeps =>
      have hbefore := zs_of_keepsAdler hkeeps hzs
      ⟨hsame.a hbefore, hsame.b hbefore⟩
  rw [commandEffect_eq, commandEffect_eq]
  exact
    { isOpen := congrArg (openAfter i) hsame.isOpen
      zs := congrArg (zsAfter i) hsame.zs
      flt := hsame.flt
      fcode := hsame.fcode
      out := congrArg₂ (· ++ ·) hsame.out (emittedBytes_congr hc hab)
      input := hsame.input
      pos := hsame.pos
      c := fun hopen => crcAfter_congr hc hab fun hkeeps => hsame.c (isOpen_of_keepsCrc hkeeps hopen)
      a := fun hzs => congrArg Prod.fst (hadler hzs)
      b := fun hzs => congrArg Prod.snd (hadler hzs) }

/-- Settles O40: the two states present the same thing and have the same flags, so they wait, reset, fault or run the same
command together. -/
theorem staleValuesUnobservable : Obligations.StaleValuesUnobservable := by
  intro s s' t hsame hstep
  match hinput : s.input with
  | [] =>
    rw [step_of_idle hinput] at hstep
    cases hstep
    exact ⟨s', step_of_idle (hsame.input ▸ hinput), hsame⟩
  | .reset :: rest =>
    rw [step_of_reset hinput] at hstep
    cases hstep
    exact ⟨_, step_of_reset (hsame.input ▸ hinput), hsame.applyReset rest⟩
  | .command w :: rest =>
    have hinput' : s'.input = .command w :: rest := hsame.input ▸ hinput
    obtain ⟨hlocked, rfl⟩ | ⟨hclear, k, hcheck, rfl⟩ | ⟨hclear, hcheck, i, hdecode, rfl⟩ :=
      step_command_cases hinput hstep
    · exact ⟨_, step_of_flt hinput' (hsame.flt ▸ hlocked), hsame.acceptCommand rest⟩
    · rw [hsame.isOpen, hsame.zs] at hcheck
      exact ⟨_, step_of_firstFailingCheck_some hinput' (hsame.flt ▸ hclear) hcheck,
        (hsame.acceptCommand rest).raiseFault k⟩
    · rw [firstFailingCheck_of_decode hdecode] at hcheck
      refine ⟨_, ?runs, (hsame.acceptCommand rest).commandEffect hcheck⟩
      case runs =>
        rw [hsame.isOpen, hsame.zs] at hcheck
        rw [step_of_decode_ok hinput' hdecode]
        exact exec_of_check_none (s := acceptCommand rest s') (hsame.flt ▸ hclear) hcheck

end Sys2Proof.Machine
end

section
/-! Runs of commands (spec/00_scope.md R9; spec/20_memory.md R39): a run cut in two, a run that ends without a fault, and the
checksums of a run that stays in one chunk or one stream (spec/40_checksum.md R75; spec/41_chunk_framer.md R80). -/

namespace Sys2Proof.Machine

/-- A list after another is folded from where the first one ended (R63). -/
theorem crcBytes_append (c : Word) (xs ys : List Byte) : crcBytes c (xs ++ ys) = crcBytes (crcBytes c xs) ys :=
  List.foldl_append

/-- A list after another is folded from where the first one ended (R68). -/
theorem adlerBytes_append (ab : Half × Half) (xs ys : List Byte) :
    adlerBytes ab (xs ++ ys) = adlerBytes (adlerBytes ab xs) ys :=
  List.foldl_append

/-! ### Runs -/

/-- A run goes on from the next state of its first command. -/
theorem runCommands_cons {i : Instr} {is : List Instr} {s u : State} (hexec : exec i s = .next u) :
    runCommands (i :: is) s = runCommands is u := by
  rw [runCommands, hexec]

/-- A run of one list after another goes on from where the first one ended. -/
theorem runCommands_append {is js : List Instr} {s u : State} (hrun : runCommands is s = .next u) :
    runCommands (is ++ js) s = runCommands js u := by
  induction is generalizing s with
  | nil =>
    cases hrun
    rfl
  | cons i is ih =>
    obtain ⟨v, hexec⟩ := exec_total i s
    rw [runCommands_cons hexec] at hrun
    rw [List.cons_append, runCommands_cons hexec, ih hrun]

/-- Every run has a last state (R9). -/
theorem runCommands_total (is : List Instr) (s : State) : ∃ t, runCommands is s = .next t := by
  induction is generalizing s with
  | nil => exact ⟨s, rfl⟩
  | cons i is ih =>
    obtain ⟨u, hexec⟩ := exec_total i s
    rw [runCommands_cons hexec]
    exact ih u

/-- A run of one list after another passes through the last state of the first. -/
theorem runCommands_append_next {is js : List Instr} {s t : State} (hrun : runCommands (is ++ js) s = .next t) :
    ∃ u, runCommands is s = .next u ∧ runCommands js u = .next t := by
  obtain ⟨u, hfirst⟩ := runCommands_total is s
  rw [runCommands_append hfirst] at hrun
  exact ⟨u, hfirst, hrun⟩

/-- A run passes through the next state of its first command. -/
theorem runCommands_cons_next {i : Instr} {is : List Instr} {s t : State} (hrun : runCommands (i :: is) s = .next t) :
    ∃ u, exec i s = .next u ∧ runCommands is u = .next t := by
  obtain ⟨u, hexec⟩ := exec_total i s
  rw [runCommands_cons hexec] at hrun
  exact ⟨u, hexec, hrun⟩

/-- A run that ends with `FLT = 0` began with it: no command clears a fault (R118, R127). -/
theorem flt_of_runCommands {is : List Instr} {s t : State} (hrun : runCommands is s = .next t) (hflt : t.flt = false) :
    s.flt = false := by
  induction is generalizing s with
  | nil =>
    cases hrun
    exact hflt
  | cons i is ih =>
    obtain ⟨u, hexec, hrest⟩ := runCommands_cons_next hrun
    exact (exec_next_of_no_fault hexec (ih hrest)).1

/-- In a run that ends with `FLT = 0` the first command passed its checks and ran whole. -/
theorem runCommands_cons_of_no_fault {i : Instr} {is : List Instr} {s t : State}
    (hrun : runCommands (i :: is) s = .next t) (hflt : t.flt = false) :
    commandCheck i s.isOpen s.zs = none ∧ runCommands is (commandEffect i s) = .next t := by
  obtain ⟨u, hexec, hrest⟩ := runCommands_cons_next hrun
  obtain ⟨-, hcheck, rfl⟩ := exec_next_of_no_fault hexec (flt_of_runCommands hrest hflt)
  exact ⟨hcheck, hrest⟩

/-! ### A run inside one chunk -/

/-- A command other than CHE that passes its checks in an open chunk folds what it emits into `C` and leaves the chunk
open: PUT and CHB do not pass there (R73). -/
theorem commandEffect_in_chunk {i : Instr} {s : State} {c : Word} (hcheck : commandCheck i s.isOpen s.zs = none)
    (hche : i ≠ .che) (hopen : s.isOpen = true) (hc : s.c = some c) :
    (commandEffect i s).c = some (crcBytes c (emittedBytes i s)) ∧ (commandEffect i s).isOpen = true := by
  rw [commandEffect_c, commandEffect_isOpen, ← readC_of_some hc]
  cases i with
  | put | chb => simp [commandCheck, hopen] at hcheck
  | che => exact absurd rfl hche
  | putc | putca | zhdr | blkhdr | filt | ztrl => exact ⟨rfl, hopen⟩

/-- A run without CHE that starts in an open chunk and ends with `FLT = 0` folds every byte it appends into `C` and leaves
the chunk open. -/
theorem runCommands_in_chunk {cmds : List Instr} {s t : State} {c : Word} (hrun : runCommands cmds s = .next t)
    (hflt : t.flt = false) (hche : .che ∉ cmds) (hopen : s.isOpen = true) (hc : s.c = some c) :
    ∃ body, t.out = s.out ++ body ∧ t.c = some (crcBytes c body) ∧ t.isOpen = true := by
  induction cmds generalizing s c with
  | nil =>
    cases hrun
    exact ⟨[], (List.append_nil _).symm, hc, hopen⟩
  | cons i cmds ih =>
    obtain ⟨hhead, htail⟩ := List.ne_and_not_mem_of_not_mem_cons hche
    obtain ⟨hcheck, hrest⟩ := runCommands_cons_of_no_fault hrun hflt
    obtain ⟨hc', hopen'⟩ := commandEffect_in_chunk hcheck hhead.symm hopen hc
    obtain ⟨body, hout, hcrc, hend⟩ := ih hrest htail hopen' hc'
    refine ⟨emittedBytes i s ++ body, ?_, ?_, hend⟩
    · rw [hout, commandEffect_out, List.append_assoc]
    · rw [hcrc, crcBytes_append]

/-- Settles O41: CHB seeds `C` with the tag's bytes folded in, the body folds in what it appends, and CHE emits the
complement. -/
theorem wholeChunkResult : Obligations.WholeChunkResult := by
  intro tag len cmds s t _ hche hrun hflt
  rw [List.append_assoc, List.singleton_append] at hrun
  obtain ⟨s1, hchb, hrest⟩ := runCommands_cons_next hrun
  obtain ⟨s2, hbody, hend⟩ := runCommands_append_next hrest
  have hflt2 : s2.flt = false := flt_of_runCommands hend hflt
  obtain ⟨-, -, rfl⟩ := exec_next_of_no_fault hchb (flt_of_runCommands hbody hflt2)
  obtain ⟨hcheck, hlast⟩ := runCommands_cons_of_no_fault hend hflt
  cases hlast
  obtain ⟨body, hout, hcrc, -⟩ := runCommands_in_chunk (c := crcBytes crcSeed (be32 tag)) hbody hflt2 hche
    (by simp [openAfter]) (by simp [crcAfter])
  refine ⟨body, _, s2, hchb, hbody, hout, ?_, ?_⟩
  · rw [commandEffect_che hcrc, ← crcBytes_append]
    simp only [hout, commandEffect_out, emittedBytes, List.append_assoc]
    rfl
  · rw [commandEffect_che hcrc]

/-! ### A run inside one stream -/

/-- A command other than ZTRL that passes its checks in an open stream folds its own Adler bytes into `(A, B)` and leaves
the stream open: CHE and ZHDR do not pass there (R69). -/
theorem commandEffect_in_stream {i : Instr} {s : State} {ab : Half × Half}
    (hcheck : commandCheck i s.isOpen s.zs = none) (hztrl : i ≠ .ztrl) (hzs : s.zs = true) (ha : s.a = some ab.1)
    (hb : s.b = some ab.2) :
    (commandEffect i s).a = some (adlerBytes ab (adlerInput i)).1 ∧
    (commandEffect i s).b = some (adlerBytes ab (adlerInput i)).2 ∧ (commandEffect i s).zs = true := by
  rw [commandEffect_a, commandEffect_b, commandEffect_zs]
  cases i with
  | zhdr | che => cases hopen : s.isOpen <;> simp [commandCheck, hopen, hzs] at hcheck
  | ztrl => exact absurd rfl hztrl
  | putca | filt =>
    rw [adlerAfter, readA_of_some ha, readB_of_some hb]
    exact ⟨rfl, rfl, hzs⟩
  | put | putc | chb | blkhdr => exact ⟨ha, hb, hzs⟩

/-- A run without ZTRL that starts in an open stream and ends with `FLT = 0` only appends, and folds the bytes of its FILT and
PUTCA into `(A, B)`. -/
theorem runCommands_in_stream {cmds : List Instr} {s t : State} {ab : Half × Half}
    (hrun : runCommands cmds s = .next t) (hflt : t.flt = false) (hztrl : .ztrl ∉ cmds) (hzs : s.zs = true)
    (ha : s.a = some ab.1) (hb : s.b = some ab.2) :
    (∃ bs, t.out = s.out ++ bs) ∧ t.a = some (adlerBytes ab (cmds.flatMap adlerInput)).1 ∧
    t.b = some (adlerBytes ab (cmds.flatMap adlerInput)).2 := by
  induction cmds generalizing s ab with
  | nil =>
    cases hrun
    exact ⟨⟨[], (List.append_nil _).symm⟩, ha, hb⟩
  | cons i cmds ih =>
    obtain ⟨hhead, htail⟩ := List.ne_and_not_mem_of_not_mem_cons hztrl
    obtain ⟨hcheck, hrest⟩ := runCommands_cons_of_no_fault hrun hflt
    obtain ⟨ha', hb', hzs'⟩ := commandEffect_in_stream hcheck hhead.symm hzs ha hb
    obtain ⟨⟨bs, hout⟩, hsumA, hsumB⟩ := ih hrest htail hzs' ha' hb'
    rw [List.flatMap_cons, adlerBytes_append]
    refine ⟨⟨emittedBytes i s ++ bs, ?_⟩, hsumA, hsumB⟩
    rw [hout, commandEffect_out, List.append_assoc]

/-- Settles O42: ZHDR seeds `(A, B)`, the run folds in the bytes of FILT and PUTCA, and ZTRL emits the word of the sums. -/
theorem trailerIsAdler32 : Obligations.TrailerIsAdler32 := by
  intro cmds s t _ hztrl hrun hflt
  rw [List.append_assoc, List.singleton_append] at hrun
  obtain ⟨-, hrest⟩ := runCommands_cons_of_no_fault hrun hflt
  obtain ⟨s2, hbody, hend⟩ := runCommands_append_next hrest
  obtain ⟨hcheck, hlast⟩ := runCommands_cons_of_no_fault hend hflt
  cases hlast
  obtain ⟨⟨bs, hout⟩, ha, hb⟩ := runCommands_in_stream (ab := (adlerSeedA, adlerSeedB)) hbody
    (flt_of_runCommands hend hflt) hztrl (by simp [zsAfter]) (by simp [adlerAfter]) (by simp [adlerAfter])
  refine ⟨zlibHeader ++ bs, ?_⟩
  rw [commandEffect_out, hout, commandEffect_out, emittedBytes, emittedBytes, readA_of_some ha, readB_of_some hb]
  simp only [List.append_assoc]
  rfl

end Sys2Proof.Machine
end

section
/-! Whole blocks and streams (spec/42_stored_block.md R88; spec/43_zlib_stream.md R94): what the host's ROW sequences do when
run, block by block. -/

namespace Sys2Proof.Machine

/-- A 16-bit length widened to the 32-bit field passes BLKHDR's range check (R85). -/
theorem lenFits_setWidth (l : Half) : lenFits (l.setWidth 32) = true := by
  have hlt := l.isLt
  rw [lenFits_iff, BitVec.toNat_setWidth]
  omega

/-- A 16-bit length widened to the 32-bit field is read back from it (R85). -/
theorem blockLen_setWidth (l : Half) : blockLen (l.setWidth 32) = l := by
  rw [← zero_append_eq_setWidth (m := 16)]
  exact BitVec.extractLsb'_append_eq_right

/-- The PUTCA of a row run as the path through both checksums on the whole row. -/
theorem runCommands_putca (row : List Byte) {s : State} (hflt : s.flt = false) (hopen : s.isOpen = true)
    (hzs : s.zs = true) : runCommands (row.map .putca) s = .next (emitCrcAdler row s) := by
  induction row generalizing s with
  | nil => rfl
  | cons u row ih =>
    have hcheck : commandCheck (.putca u) s.isOpen s.zs = none := by simp [commandCheck, hopen, hzs]
    rw [List.map_cons, runCommands_cons (exec_of_check_none hflt hcheck)]
    exact ih hflt hopen hzs

/-- FILT and the PUTCA of a row run in an open stream append the scanline and fold it into both checksums: FILT is
`PUTCA 0` (R84, R86). -/
theorem runCommands_scanline (row : List Byte) {s : State} {c : Word} {ab : Half × Half} (hflt : s.flt = false)
    (hopen : s.isOpen = true) (hzs : s.zs = true) (hc : s.c = some c) (ha : s.a = some ab.1) (hb : s.b = some ab.2) :
    runCommands (.filt :: row.map .putca) s =
      .next { s with
        out := s.out ++ scanline row
        c := some (crcBytes c (scanline row))
        a := some (adlerBytes ab (scanline row)).1
        b := some (adlerBytes ab (scanline row)).2 } := by
  have hputca : runCommands (.filt :: row.map .putca) s = runCommands ((scanline row).map .putca) s := by
    rw [runCommands, exec_filt_eq_putca]
    rfl
  rw [hputca, runCommands_putca _ hflt hopen hzs, scanline, emitCrcAdler_spec, readC_of_some hc, readA_of_some ha,
    readB_of_some hb]

/-- A ROW run in an open stream appends a stored block, folds all of it into `C`, and its scanline into `(A, B)` (R88). -/
theorem runCommands_pseudoRow (final : BitVec 1) (l : Half) (row : List Byte) {s : State} {c : Word} {ab : Half × Half}
    (hflt : s.flt = false) (hopen : s.isOpen = true) (hzs : s.zs = true) (hc : s.c = some c) (ha : s.a = some ab.1)
    (hb : s.b = some ab.2) :
    runCommands (pseudoRow final (l.setWidth 32) row) s =
      .next { s with
        out := s.out ++ storedBlock final l (scanline row)
        c := some (crcBytes c (storedBlock final l (scanline row)))
        a := some (adlerBytes ab (scanline row)).1
        b := some (adlerBytes ab (scanline row)).2 } := by
  have hcheck : commandCheck (.blkhdr final (l.setWidth 32)) s.isOpen s.zs = none := by
    simp [commandCheck, hopen, hzs, lenFits_setWidth]
  have hheader := exec_of_check_none hflt hcheck
  rw [commandEffect_blkhdr final _ hc, blockLen_setWidth] at hheader
  rw [pseudoRow, List.cons_append, runCommands_cons hheader, storedBlock, crcBytes_append, ← List.append_assoc]
  exact runCommands_scanline row hflt hopen hzs rfl ha hb

/-- Settles O43: the commands are those of ROW, and the bytes those of the stored block. -/
theorem wholeBlockResult : Obligations.WholeBlockResult := by
  intro final l row s c a b hflt hopen hzs hc ha hb _ _
  have hbytes : storedBlock final l (scanline row) =
      [final.setWidth 8] ++ le16 l ++ le16 (~~~l) ++ [0x00] ++ row := by
    rw [storedBlock, blockFraming, scanline, List.append_assoc _ [0x00] row]
    rfl
  rw [← hbytes]
  exact runCommands_pseudoRow (ab := (a, b)) final l row hflt hopen hzs hc ha hb

/-- The ROWs of any list of rows run in an open stream append their stored blocks, fold all of them into `C`, and the
scanlines into `(A, B)` without reseeding (R89, R94). -/
theorem runCommands_pseudoRows (l : Half) (rows : List (List Byte)) {s : State} {c : Word} {ab : Half × Half}
    (hflt : s.flt = false) (hopen : s.isOpen = true) (hzs : s.zs = true) (hc : s.c = some c) (ha : s.a = some ab.1)
    (hb : s.b = some ab.2) :
    runCommands (pseudoRows (l.setWidth 32) rows) s =
      .next { s with
        out := s.out ++ rowBlocks l rows
        c := some (crcBytes c (rowBlocks l rows))
        a := some (adlerBytes ab (rows.flatMap scanline)).1
        b := some (adlerBytes ab (rows.flatMap scanline)).2 } := by
  induction rows generalizing s c ab with
  | nil =>
    have hsame : s = { s with out := s.out ++ [], c := some c, a := some ab.1, b := some ab.2 } := by
      rw [List.append_nil, ← hc, ← ha, ← hb]
    exact congrArg Host.Outcome.next hsame
  | cons row rows ih =>
    rw [pseudoRows, runCommands_append (runCommands_pseudoRow _ l row hflt hopen hzs hc ha hb), rowBlocks,
      List.flatMap_cons, crcBytes_append, adlerBytes_append, ← List.append_assoc]
    exact ih hflt hopen hzs rfl rfl rfl

/-- The stored blocks of rows of `pitch - 1` bytes: five framing bytes and `pitch` literal bytes for each (R94). -/
theorem rowBlocks_length (l : Half) {rows : List (List Byte)} (hrows : ∀ row ∈ rows, row.length + 1 = l.toNat) :
    (rowBlocks l rows).length = rows.length * (5 + l.toNat) := by
  induction rows with
  | nil => rw [rowBlocks, List.length_nil, List.length_nil, Nat.zero_mul]
  | cons row rows ih =>
    obtain ⟨hrow, hrest⟩ := List.forall_mem_cons.mp hrows
    have hblock (final : BitVec 1) : (storedBlock final l (scanline row)).length = 5 + l.toNat := by
      rw [storedBlock, List.length_append, scanline, List.length_cons, hrow]
      rfl
    rw [rowBlocks, List.length_append, hblock, ih hrest, List.length_cons]
    ring

/-- ZTRL run in an open stream appends the word of the sums, folds it into `C` and closes the stream (R93). -/
theorem runCommands_ztrl {s : State} {c : Word} {ab : Half × Half} (hflt : s.flt = false) (hopen : s.isOpen = true)
    (hzs : s.zs = true) (hc : s.c = some c) (ha : s.a = some ab.1) (hb : s.b = some ab.2) :
    runCommands [.ztrl] s =
      .next { s with
        out := s.out ++ be32 (adlerWord ab)
        c := some (crcBytes c (be32 (adlerWord ab)))
        zs := false } := by
  have hcheck : commandCheck .ztrl s.isOpen s.zs = none := by simp [commandCheck, hopen, hzs]
  rw [runCommands_cons (exec_of_check_none hflt hcheck), commandEffect_ztrl hc ha hb]
  rfl

/-- The ROWs of any list of rows and ZTRL, run in an open stream (R93, R94). -/
theorem runCommands_pseudoRows_ztrl (l : Half) (rows : List (List Byte)) {s : State} {c : Word} {ab : Half × Half}
    (hflt : s.flt = false) (hopen : s.isOpen = true) (hzs : s.zs = true) (hc : s.c = some c) (ha : s.a = some ab.1)
    (hb : s.b = some ab.2) :
    runCommands (pseudoRows (l.setWidth 32) rows ++ [.ztrl]) s =
      .next { s with
        out := s.out ++ (rowBlocks l rows ++ be32 (adlerWord (adlerBytes ab (rows.flatMap scanline))))
        c := some (crcBytes c (rowBlocks l rows ++ be32 (adlerWord (adlerBytes ab (rows.flatMap scanline)))))
        a := some (adlerBytes ab (rows.flatMap scanline)).1
        b := some (adlerBytes ab (rows.flatMap scanline)).2
        zs := false } := by
  rw [runCommands_append (runCommands_pseudoRows l rows hflt hopen hzs hc ha hb), crcBytes_append, ← List.append_assoc]
  exact runCommands_ztrl hflt hopen hzs rfl rfl rfl

/-- ZHDR, the ROWs of any list of rows and ZTRL, run in an open chunk with no stream open, append the zlib stream, fold all
of it into `C`, and leave the sums of the scanlines and no stream (R92 to R94). -/
theorem runCommands_pseudoStream (l : Half) (rows : List (List Byte)) {s : State} {c : Word} (hflt : s.flt = false)
    (hopen : s.isOpen = true) (hzs : s.zs = false) (hc : s.c = some c) :
    runCommands (pseudoStream (l.setWidth 32) rows) s =
      .next { s with
        out := s.out ++ zlibStream l rows
        c := some (crcBytes c (zlibStream l rows))
        a := some (adlerBytes (adlerSeedA, adlerSeedB) (rows.flatMap scanline)).1
        b := some (adlerBytes (adlerSeedA, adlerSeedB) (rows.flatMap scanline)).2
        zs := false } := by
  have hcheck : commandCheck .zhdr s.isOpen s.zs = none := by simp [commandCheck, hopen, hzs]
  rw [pseudoStream, List.append_assoc, List.singleton_append, runCommands_cons (exec_of_check_none hflt hcheck),
    commandEffect_zhdr hc, zlibStream, List.append_assoc, crcBytes_append, ← List.append_assoc s.out]
  exact runCommands_pseudoRows_ztrl (ab := (adlerSeedA, adlerSeedB)) l rows hflt hopen rfl rfl rfl rfl

/-- Settles O44: the bytes are those of the zlib stream, its last four the Adler-32 of the scanlines. -/
theorem wholeStreamResult : Obligations.WholeStreamResult := by
  refine fun l rows s c hflt hopen hzs hc => ⟨?runs, fun hrows => ?length⟩
  case runs => exact ⟨_, runCommands_pseudoStream l rows hflt hopen hzs hc, rfl, rfl, hopen, rfl, hflt⟩
  case length =>
    rw [List.length_append, List.length_append, rowBlocks_length l hrows]
    rfl

end Sys2Proof.Machine
end
